-- ==== Sys2Proof/Word.lean ====
section
/-! DEFINITION. The value types of the SM3 engine: words, bytes, command words, the bit counter,
offsets into the block buffer, a 64-byte block and the eight chaining words (spec 00_scope R5, R9). -/

namespace Sys2Proof

/-- WORD of R5: an unsigned 32-bit word. `+` on it wraps modulo 2^32 (R9, R91). -/
abbrev Word := BitVec 32

/-- One byte of the message or of the block buffer. -/
abbrev Byte := BitVec 8

/-- CMDW of R6: a command word is 16 bits (R60). -/
abbrev CmdWord := BitVec 16

/-- COUNT of R5: the bit counter, unsigned, 64 bits; `+` on it wraps modulo 2^64 (R9, R122). -/
abbrev Count := BitVec 64

/-- An offset into the block buffer, 0..63, a 6-bit unsigned number (R40). -/
abbrev Offset := Fin 64

/-- BLOCK of R5: exactly 64 bytes. -/
abbrev Block := Vector Byte 64

/-- Eight 32-bit words, the chaining value V[0..7] (R20) and the type of IV (R82). -/
structure Chain where
  v0 : Word
  v1 : Word
  v2 : Word
  v3 : Word
  v4 : Word
  v5 : Word
  v6 : Word
  v7 : Word
  deriving DecidableEq, Repr

end Sys2Proof
end

