-- ==== Sys2Proof/Syntax.lean ====
section
/-! DEFINITION. The commands of spec/opcode_table.json, one constructor per row, the raw fields of a
command word, and the names under which the decoder rejects a word. -/

namespace Sys2Proof

/-- The three commands of R61. -/
inductive Instr where
  /-- INIT, R80. No operand. -/
  | init
  /-- ABSORB b, R120. `b` is imm8, the data byte itself; all 256 values are legal (R62). -/
  | absorb (b : Byte)
  /-- FINAL, R130. No operand. -/
  | final
  deriving DecidableEq, Repr

/-- The two fields of every command word (R60): op = word[15:8] and imm8 = word[7:0]. -/
structure RawCmd where
  op : BitVec 8
  imm8 : BitVec 8
  deriving DecidableEq, Repr

/-- Why a word is `ILLEGAL` (R64), by name. -/
inductive DecodeError where
  /-- op is 0x00 or 0x04 to 0xFF (R61, R64). -/
  | reservedOpcode (op : BitVec 8)
  /-- op is INIT's or FINAL's and imm8 is not zero (R63). -/
  | operandNotZero (op imm8 : BitVec 8)
  deriving DecidableEq, Repr

end Sys2Proof
end

