-- ==== Sys2Proof/WellFormed.lean ====
section
/-! DEFINITION. Which raw command words are commands at all (R61, R63), and that a constructor of
`Instr` needs no further check: its one operand is a byte, and every byte is legal (R62). -/

namespace Sys2Proof

/-- R61: the opcode is one of the three that are defined. -/
def RawCmd.opDefined (c : RawCmd) : Bool :=
  c.op == 0x01#8 || c.op == 0x02#8 || c.op == 0x03#8

/-- R63: INIT and FINAL take imm8 = 0x00 only. R62: ABSORB takes every imm8. -/
def RawCmd.immAllowed (c : RawCmd) : Bool :=
  !(c.op == 0x01#8 || c.op == 0x03#8) || c.imm8 == 0x00#8

/-- The raw command is one of the 258 legal ones (R64). -/
def RawCmd.wellFormed (c : RawCmd) : Bool :=
  c.opDefined && c.immAllowed

/-- Every command written in `Instr` is well formed: R62 makes all 256 operands of ABSORB legal, and INIT
and FINAL have no operand to get wrong. -/
def Instr.wellFormed : Instr → Bool
  | .init => true
  | .absorb _ => true
  | .final => true

end Sys2Proof
end

