-- ==== Sys2Proof/Decode.lean ====
section
/-! DEFINITION. The decoder of R65, total on all 65536 words and rejecting by name, then the encoder from
the match and mask values of R61, and the host's reading of a word of spec/opcode_table.json. -/

namespace Sys2Proof

/-- The fields of a command word (R60). -/
def RawCmd.ofWord (w : CmdWord) : RawCmd :=
  { op := w.extractLsb' 8 8, imm8 := w.extractLsb' 0 8 }

/-- Under which name an illegal word is rejected (R63, R64). -/
def rejection (c : RawCmd) : DecodeError :=
  if c.opDefined then .operandNotZero c.op c.imm8 else .reservedOpcode c.op

/-- R65. -/
def decode (w : CmdWord) : Except DecodeError Instr :=
  if w = 0x0100#16 then .ok .init
  else if (RawCmd.ofWord w).op = 0x02#8 then .ok (.absorb (RawCmd.ofWord w).imm8)
  else if w = 0x0300#16 then .ok .final
  else .error (rejection (RawCmd.ofWord w))

/-- The command word of a command (R61). R60: a word travels on a 16-bit port and has no byte order. -/
def encode : Instr → CmdWord
  | .init => 0x0100#16
  | .absorb b => 0x0200#16 ||| b.setWidth 16
  | .final => 0x0300#16

/-- The word whose bits are `w`, the bits above `nbits` zero. Every command is exactly one 16-bit word (R60). -/
def tableWord (nbits w : Nat) : CmdWord :=
  BitVec.ofNat 16 (w % 2 ^ nbits)

/-- What the decoder reads from a word numbered as spec/opcode_table.json numbers it. -/
def decodeTableWord (nbits w : Nat) : Option Instr :=
  match decode (tableWord nbits w) with
  | .ok i => some i
  | .error _ => none

end Sys2Proof
end

