-- ==== Sys2Proof/Config.lean ====
section
/-! DEFINITION. What is fixed for one engine (the configuration field IV) and the values the spec
leaves without one (constants with no body, so that no proof can learn them). -/

namespace Sys2Proof

/-- The default of `IV`, the eight words of R82 (K1: from general knowledge of GM/T 0004-2012, which the
spec states as the value to take; D19). -/
def defaultIV : Chain :=
  ⟨0x7380166f, 0x4914b2b9, 0x172442d7, 0xda8a0600,
   0xa96f30bc, 0x163138aa, 0xe38dee4d, 0xb0fb0e4e⟩

/-- The configuration: R82 and D19 make `IV` a configuration field with a default, so that a claim can
name it. -/
structure Config where
  /-- `IV[0..7]` of R82. -/
  iv : Chain := defaultIV
  deriving DecidableEq, Repr

/-- The configuration of this engine: every field at the spec's default. -/
def Config.engine : Config := {}

/-- What `V[i]` holds between reset and the first INIT. DESIGN CHOICE (log 1, unsafe): R34 says it holds no
value and forbids zero and `IV`; the model holds a constant with no body. -/
opaque Config.resetV : Fin 8 → Word

/-- What `BITCNT` holds between reset and the first INIT. DESIGN CHOICE (log 1, unsafe), as `resetV`. -/
opaque Config.resetBitcnt : Count

/-- What a compression would read from a cell of `BUF` that holds no value. DESIGN CHOICE (log 2): the spec
shows that no run reads one (R34, R50), so this is a free value for states that no run reaches. -/
opaque Config.unwrittenByte : Offset → Byte

end Sys2Proof
end

