-- ==== Sys2Proof/Machine/State.lean ====
section
/-! DEFINITION. The state of the engine as plain data (10_state R20 to R37), the inputs of the host, why a
step could stop (it never does), and the state after reset (R34). -/

namespace Sys2Proof.Machine

open Sys2Proof

/-- PHASE of R24. Three values; the code 3 never occurs (U13). -/
inductive Phase where
  | uninit
  | ready
  | finalized
  deriving DecidableEq, Repr

/-- ERRCODE of R25 and R162. Three values; the code 3 never occurs (U12). -/
inductive ErrCode where
  | none
  | illegalCmd
  | badPhase
  deriving DecidableEq, Repr

/-- What the host does to the engine next (R194). Reads of the ports change nothing and are not inputs. -/
inductive HostInput where
  /-- `rst` is asserted (R180). -/
  | reset
  /-- a command word is offered on `cmd` and accepted (R33, R60). -/
  | command (w : CmdWord)
  deriving DecidableEq, Repr

/-- `BUF[0..63]` of R21 and R40: (offset, byte) pairs, offsets strictly rising. An offset that is not listed
holds no value (R34); `Memory.wf` of Machine/Ops.lean says the form. -/
abbrev Memory := List Host.Cell

/-- The architectural state (R20 to R25), and beside it the host's side of a run (R31).
The transient A..H, W, W1, j, i, idx and L of R28 to R30 do not exist between commands (R34), so no field
holds them; STATUS and DIGEST are views (R26, R27). -/
structure State where
  /-- `V[0..7]`, the chaining value (R20). -/
  v : Chain
  /-- `BUF[0..63]`, the block buffer (R21). -/
  buf : Memory
  /-- `BITCNT`, the bits absorbed since INIT (R22). -/
  bitcnt : Count
  /-- `PHASE` (R24). -/
  phase : Phase
  /-- `ERR`, sticky (R25). -/
  err : Bool
  /-- `ERRCODE` (R25, R162). -/
  errcode : ErrCode
  /-- `ERRCMD` (R25). -/
  errcmd : CmdWord
  /-- `cp`, how many commands have been accepted since reset (R31). Host side; no rule of the engine reads it. -/
  cp : Nat
  /-- What the host does next, oldest first: the rest of R31's recorded stream. Host side (log 3). -/
  inputs : List HostInput
  deriving DecidableEq, Repr

/-- Why a run could stop with a fault: never. The faults of the spec (R162) are TAKEN, as next states with
the fault record written (R166); R165 is total and no case of the spec is stuck (93 section 1), so this type
has no constructor and nobody raises one. Safe: there is nothing to raise. -/
inductive Fault where
  deriving DecidableEq, Repr

/-- Why a command could be refused. -/
inductive Refusal where
  /-- A command without a meaning. The interface asks for the name; every command has its meaning, so nobody
  raises it. Safe: a refusal proves nothing about the engine. -/
  | notModelled (mnemonic : String)
  deriving DecidableEq, Repr

/-- The state after reset (R34, R180): UNINIT, no fault recorded, nothing accepted yet. `V` and `BITCNT` hold
no value the spec gives (log 1), `BUF` lists nothing (log 2), and no input is placed (log 3). -/
def State.reset : State where
  v := ⟨Config.resetV 0, Config.resetV 1, Config.resetV 2, Config.resetV 3,
        Config.resetV 4, Config.resetV 5, Config.resetV 6, Config.resetV 7⟩
  buf := []
  bitcnt := Config.resetBitcnt
  phase := .uninit
  err := false
  errcode := .none
  errcmd := 0x0000#16
  cp := 0
  inputs := []

end Sys2Proof.Machine
end

