-- ==== Sys2Proof/Machine/Operands.lean ====
section
/-! DEFINITION. Operand forms and byte orders: the fill offset (R23), the big-endian layouts of block words,
length field and digest (R42 to R44), and the registers by number (R10, R20). -/

namespace Sys2Proof.Machine

open Sys2Proof

/-- The fill offset `(BITCNT / 8) mod 64` of R23, a number in 0..63. -/
def fillOf (c : Count) : Offset :=
  Fin.ofNat 64 (c.toNat / 8)

/-- The fill offset of a state; a function of BITCNT, not a register (R23). -/
def State.fill (s : State) : Offset :=
  fillOf s.bitcnt

/-- `V[i]` (R10, R20). -/
def chainWord (v : Chain) (i : Fin 8) : Word :=
  match i with
  | 0 => v.v0
  | 1 => v.v1
  | 2 => v.v2
  | 3 => v.v3
  | 4 => v.v4
  | 5 => v.v5
  | 6 => v.v6
  | 7 => v.v7

/-- Byte `k` of an `n`-byte number laid out big-endian (R10): `v[8(n-k)-1 : 8(n-k-1)]`, byte 0 the most
significant. -/
def bigEndianByte {n : Nat} (v : BitVec (8 * n)) (k : Fin n) : Byte :=
  v.extractLsb' (8 * (n - k.val - 1)) 8

/-- `MemRead(4i, 4)` on a block (R10, R42): the byte at offset 4i is the most significant. -/
def blockWord (b : Block) (i : Fin 16) : Word :=
  b[4 * i.val] ++ b[4 * i.val + 1] ++ b[4 * i.val + 2] ++ b[4 * i.val + 3]

/-- The digest's bytes: `D[4i + k] = V[i][31-8k : 24-8k]` (R44, R137). -/
def serialise (v : Chain) : Vector Byte 32 :=
  Vector.ofFn fun n : Fin 32 =>
    (chainWord v (Fin.ofNat 8 (n.val / 4))).extractLsb' (24 - 8 * (n.val % 4)) 8

end Sys2Proof.Machine
end

