-- ==== Sys2Proof/Machine/Ops.lean ====
section
/-! DEFINITION. The named operations: reads and writes of the block buffer (R10, R40), the writers of each
item of state, taking a fault (R166), and the two checks every command makes first (R165). -/

namespace Sys2Proof.Machine

open Sys2Proof

/-- How a step ends. -/
abbrev Result := Host.Outcome State Fault Refusal

/-! ### The block buffer -/

/-- The canonical form of the buffer: offsets strictly rising, all below 64 (R40). No cell can equal what an
unlisted offset reads as, since that is no value at all. -/
def Memory.wf (m : Memory) : Bool :=
  decide (m.Pairwise fun x y => x.1 < y.1) && m.all fun c => decide (c.1 < 64)

/-- `BUF[a]`: the byte listed at `a`, or no value (R34). The ONE definition of what an unlisted offset reads
as (log 2). -/
def Memory.read : Memory → Nat → Option Byte
  | [], _ => none
  | (k, b) :: rest, a => if k = a then some b else Memory.read rest a

/-- Puts a cell into its place, replacing one at the same offset. -/
def Memory.put : Memory → Nat → Byte → Memory
  | [], a, b => [(a, b)]
  | (k, c) :: rest, a, b =>
    if a < k then (a, b) :: (k, c) :: rest
    else if a = k then (a, b) :: rest
    else (k, c) :: Memory.put rest a b

/-- `BUF[a] <- b` (R10). -/
def Memory.write (m : Memory) (a : Offset) (b : Byte) : Memory :=
  Memory.put m a.val b

/-- `for k in start..stop-1: BUF[k] <- 0x00` (R80, R133, R134); no write when `stop <= start`.
Irreducible, so that no proof runs the 64 writes by accident; Memory.read_zeroFill says what it does. -/
@[irreducible] def Memory.zeroFill (m : Memory) (start stop : Nat) : Memory :=
  ((List.finRange 64).filter fun k => decide (start ≤ k.val ∧ k.val < stop)).foldl
    (fun m k => m.write k 0x00#8) m

/-- `MemWrite(addr, n, v)`, big-endian, defined only for `addr + n <= 64` (R10, R41).
Irreducible, as zeroFill; Memory.read_writeBE_inside and Memory.read_writeBE_outside say what it does. -/
@[irreducible] def Memory.writeBE (m : Memory) (addr n : Nat) (v : BitVec (8 * n)) (h : addr + n ≤ 64) : Memory :=
  (List.finRange n).foldl
    (fun m k => m.write ⟨addr + k.val, Nat.lt_of_lt_of_le (Nat.add_lt_add_left k.isLt addr) h⟩
      (bigEndianByte v k)) m

/-- The byte a compression reads at `k`. A cell with no value gives a free byte (log 2); the spec shows that
no run reads one (R50). -/
def Memory.byte (m : Memory) (k : Offset) : Byte :=
  (m.read k.val).getD (Config.unwrittenByte k)

/-- `BUF[0..63]` as one block (R107). Irreducible, as zeroFill; Memory.getElem_block and Memory.block_eq_iff
say what it is. -/
@[irreducible] def Memory.block (m : Memory) : Block :=
  Vector.ofFn fun k => m.byte k

/-! ### Writers of the state -/

/-- Writes all eight chaining registers at once (R20). -/
def State.setV (s : State) (v : Chain) : State := { s with v := v }

/-- Replaces the buffer's contents (R21). -/
def State.setBuf (s : State) (m : Memory) : State := { s with buf := m }

/-- Writes BITCNT (R22). -/
def State.setBitcnt (s : State) (c : Count) : State := { s with bitcnt := c }

/-- Writes PHASE (R24). -/
def State.setPhase (s : State) (p : Phase) : State := { s with phase := p }

/-- What fault entry writes (R166): ERR, ERRCODE and ERRCMD, and nothing else. -/
def State.recordFault (s : State) (code : ErrCode) (w : CmdWord) : State :=
  { s with err := true, errcode := code, errcmd := w }

/-- A command has been taken from the port (R31): `cp` advances by one, and `rest` is still to come. -/
def State.accepted (s : State) (rest : List HostInput) : State :=
  { s with cp := s.cp + 1, inputs := rest }

/-- Reset (R180): the state of R34, whatever stood before; the inputs still to come stay the host's. -/
def State.afterReset (_s : State) (rest : List HostInput) : State :=
  { State.reset with inputs := rest }

/-! ### Taking a fault, and the checks before a command -/

/-- `raise <cause>(w)` (R166). The engine has no handler and no vector (R161): the fault is a next state. -/
def raise (code : ErrCode) (w : CmdWord) (s : State) : Result :=
  .next (s.recordFault code w)

/-- The first check of R165: while ERR = 1 every command is discarded and changes no state (R167).
There is no return from a fault but reset (R168). -/
def unlessFaulted (s : State) (run : Result) : Result :=
  if s.err then .next s else run

/-- The phase check of R165 for ABSORB and FINAL: outside READY the command raises BAD_PHASE and has no
other effect (R164). The recorded word is the command's own, the only one that decodes to it. -/
def inReady (i : Instr) (s : State) (run : Result) : Result :=
  if s.phase = .ready then run else raise .badPhase (encode i) s

/-- An accepted word that names no command (R163). -/
def illegalCommand (w : CmdWord) (s : State) : Result :=
  unlessFaulted s (raise .illegalCmd w s)

end Sys2Proof.Machine
end

