-- ==== Sys2Proof/Machine/Compress.lean ====
section
/-! DEFINITION. COMPRESS (41_compress, R90 to R112), the engine's internal operation: primitives, parsing,
expansion, derived words, 64 rounds and the combination with the old chaining value. -/

namespace Sys2Proof.Machine

open Sys2Proof

/-! ### Primitives -/

/-- `ROTL(x, n)`, left rotation by 0..31 (R90, K2); `n = 0` is a case of its own, as R90 asks. -/
def rotl (x : Word) (n : Fin 32) : Word :=
  if n = 0 then x else (x <<< n.val) ||| (x >>> (32 - n.val))

/-- R92. -/
def p0 (x : Word) : Word := x ^^^ rotl x 9 ^^^ rotl x 17

/-- R93. -/
def p1 (x : Word) : Word := x ^^^ rotl x 15 ^^^ rotl x 23

/-- `T[j]` (R94). -/
def roundConstant (j : Nat) : Word :=
  if j < 16 then 0x79cc4519#32 else 0x7a879d8a#32

/-- `FF(X, Y, Z, j)` (R96): XOR below round 16, majority from there on. -/
def ff (x y z : Word) (j : Nat) : Word :=
  if j < 16 then x ^^^ y ^^^ z else (x &&& y) ||| (x &&& z) ||| (y &&& z)

/-- `GG(X, Y, Z, j)` (R97): XOR below round 16, choice from there on. -/
def gg (x y z : Word) (j : Nat) : Word :=
  if j < 16 then x ^^^ y ^^^ z else (x &&& y) ||| (~~~x &&& z)

/-- `TR[j] = ROTL(T[j], j mod 32)` (R104, R111). -/
def rotatedConstant (j : Nat) : Word :=
  rotl (roundConstant j) (Fin.ofNat 32 j)

/-! ### The schedule -/

/-- Word `i` of a schedule (R29). The rules only read words already written. -/
def scheduleWord (ws : List Word) (i : Nat) : Word := ws.getD i 0

/-- `W[0..15]` (R98). -/
def parse (b : Block) : List Word :=
  List.ofFn fun i => blockWord b i

/-- `W[i]` from the words before it (R99), `16 <= i <= 67`. -/
def expandedWord (ws : List Word) (i : Nat) : Word :=
  p1 (scheduleWord ws (i - 16) ^^^ scheduleWord ws (i - 9) ^^^ rotl (scheduleWord ws (i - 3)) 15)
    ^^^ rotl (scheduleWord ws (i - 13)) 7 ^^^ scheduleWord ws (i - 6)

/-- `W[0..67]`: R98, then R99 for `i` from 16 to 67 in increasing order. -/
def schedule (b : Block) : List Word :=
  (List.range' 16 52).foldl (fun ws i => ws ++ [expandedWord ws i]) (parse b)

/-- `W1[i] = W[i] XOR W[i+4]` for `i` in 0..63 (R100). -/
def derivedWords (w : List Word) : List Word :=
  (List.range 64).map fun i => scheduleWord w i ^^^ scheduleWord w (i + 4)

/-! ### The rounds -/

/-- The working variables A..H, alive only inside one compression (R28). -/
structure WorkVars where
  a : Word
  b : Word
  c : Word
  d : Word
  e : Word
  f : Word
  g : Word
  h : Word
  deriving DecidableEq, Repr

/-- R101: the working variables start as the chaining value. -/
def loadVars (v : Chain) : WorkVars :=
  ⟨v.v0, v.v1, v.v2, v.v3, v.v4, v.v5, v.v6, v.v7⟩

/-- One round (R102), given the round's `W[j]` and `W1[j]`. All right-hand sides read the old variables
(R103, R184). -/
def round (r : WorkVars) (j : Nat) (wj w1j : Word) : WorkVars :=
  let ss1 := rotl (rotl r.a 12 + r.e + rotatedConstant j) 7
  let ss2 := ss1 ^^^ rotl r.a 12
  let tt1 := ff r.a r.b r.c j + r.d + ss2 + w1j
  let tt2 := gg r.e r.f r.g j + r.h + ss1 + wj
  ⟨tt1, r.a, rotl r.b 9, r.c, p0 tt2, r.e, rotl r.f 19, r.g⟩

/-- The rounds `j = 0, ..., 63` in order (R105). -/
def mix (w w1 : List Word) (r : WorkVars) : WorkVars :=
  (List.range 64).foldl (fun r j => round r j (scheduleWord w j) (scheduleWord w1 j)) r

/-- R106: every new chaining word is the old one XOR the final working variable. -/
def combine (v : Chain) (r : WorkVars) : Chain :=
  ⟨v.v0 ^^^ r.a, v.v1 ^^^ r.b, v.v2 ^^^ r.c, v.v3 ^^^ r.d,
   v.v4 ^^^ r.e, v.v5 ^^^ r.f, v.v6 ^^^ r.g, v.v7 ^^^ r.h⟩

/-! ### The whole operation -/

/-- `CF : (8 words) x (64 bytes) -> (8 words)` (R107).
Irreducible, so that no proof runs the 64 rounds by accident; the kernel evaluates it all the same. -/
@[irreducible] def cf (v : Chain) (b : Block) : Chain :=
  combine v (mix (schedule b) (derivedWords (schedule b)) (loadVars v))

/-- `COMPRESS()`: `V <- CF(V, BUF[0..63])` and nothing else (R107, D26). -/
def State.compress (s : State) : State :=
  s.setV (cf s.v s.buf.block)

end Sys2Proof.Machine
end

