-- ==== Sys2Proof/Machine/Finalize.lean ====
section
/-! DEFINITION. The FINAL command (43_finalize, R130 to R141), one definition per step of the source.
`idx` and `L` are transient (R30): arguments, not state. -/

namespace Sys2Proof.Machine

open Sys2Proof

/-- Step 2 (R132): the terminator byte at the fill offset. -/
def State.padTerminator (s : State) (idx : Offset) : State :=
  s.setBuf (s.buf.write idx 0x80#8)

/-- Step 3 (R133), taken when the length no longer fits: zeros to the end of the block, and compress it. -/
def State.spillBlock (s : State) (idx : Nat) : State :=
  (s.setBuf (s.buf.zeroFill idx 64)).compress

/-- Steps 4 to 6 (R134, R135, R136): zeros from `idx` up to offset 55, the length `L` big-endian at 56..63,
and the last compression. -/
def State.lengthBlock (s : State) (idx : Nat) (len : Count) : State :=
  let s := s.setBuf (s.buf.zeroFill idx 56)
  let s := s.setBuf (s.buf.writeBE 56 8 len (by decide))
  s.compress

/-- The body of R130. `L` is captured before any padding (R131); the test `idx > 56` is on the offset after
the terminator (R133); BITCNT is not written and BUF keeps the last padded block (R138, D12). -/
def State.finalize (s : State) : State :=
  let len := s.bitcnt
  let idx := s.fill.val + 1
  let s := s.padTerminator s.fill
  let s := if idx > 56 then (s.spillBlock idx).lengthBlock 0 len else s.lengthBlock idx len
  s.setPhase .finalized

/-- FINAL. Discarded while ERR = 1, BAD_PHASE outside READY, a second FINAL included (R130, R141, R165). -/
def execFinal (s : State) : Result :=
  unlessFaulted s (inReady .final s (.next s.finalize))

end Sys2Proof.Machine
end

