-- ==== Sys2Proof/Machine/Init.lean ====
section
/-! DEFINITION. The INIT command (40_init, R80 to R82). -/

namespace Sys2Proof.Machine

open Sys2Proof

/-- The body of R80: the fresh hash state, in the order of its pseudocode. -/
def State.loadFresh (s : State) (cfg : Config) : State :=
  let s := s.setV cfg.iv
  let s := s.setBitcnt 0
  let s := s.setBuf (s.buf.zeroFill 0 64)
  s.setPhase .ready

/-- INIT. Discarded while ERR = 1, legal in every phase (R80, R81). -/
def execInit (s : State) : Result :=
  unlessFaulted s (.next (s.loadFresh Config.engine))

end Sys2Proof.Machine
end

