-- ==== Sys2Proof/Machine/Update.lean ====
section
/-! DEFINITION. The ABSORB command (42_update, R120 to R122, R125, R126). -/

namespace Sys2Proof.Machine

open Sys2Proof

/-- The body of R120. The offset is taken before BITCNT is incremented; the increment wraps (R122, D11); the
byte that lands at offset 63 triggers the compression (R121), which reads the buffer with that byte in it. -/
def State.absorbByte (s : State) (b : Byte) : State :=
  let k := s.fill
  let s := s.setBuf (s.buf.write k b)
  let s := s.setBitcnt (s.bitcnt + 8)
  if k = 63 then s.compress else s

/-- ABSORB b. Discarded while ERR = 1, BAD_PHASE outside READY (R120, R125, R165). -/
def execAbsorb (b : Byte) (s : State) : Result :=
  unlessFaulted s (inReady (.absorb b) s (.next (s.absorbByte b)))

end Sys2Proof.Machine
end

