-- ==== Sys2Proof/Machine/Accept.lean ====
section
/-! DEFINITION. Taking the host's next input: R165's procedure for a command word, R180 for a reset, and
waiting when there is none. -/

namespace Sys2Proof.Machine

open Sys2Proof

/-- `step(w)` of R165. -/
def acceptCommand (w : CmdWord) (s : State) : Result :=
  match decode w with
  | .ok i => exec i s
  | .error _ => illegalCommand w s

/-- A command stream, word by word: the state after `c2` is `step(step(s, c1), c2)` (R52). -/
def acceptAll : List CmdWord → State → Result
  | [], s => .next s
  | w :: ws, s =>
    match acceptCommand w s with
    | .next t => acceptAll ws t
    | .fault r => .fault r
    | .refused r => .refused r

/-- What the engine does with what the host does next. With nothing offered it holds its state (R175, R193). -/
def takeInput (s : State) : Result :=
  match s.inputs with
  | [] => .next s
  | .reset :: rest => .next (s.afterReset rest)
  | .command w :: rest => acceptCommand w (s.accepted rest)

/-- The host offers `w` next, before what it was going to do. -/
def State.offer (s : State) (w : CmdWord) : State :=
  { s with inputs := .command w :: s.inputs }

end Sys2Proof.Machine
end

