-- ==== Sys2Proof/Machine/Step.lean ====
section
/-! DEFINITION. The step of the machine, and how the host places one command word before it. -/

namespace Sys2Proof.Machine

open Sys2Proof

/-- One step: one input of the host, taken whole (R7, R52). -/
def step (s : State) : Host.Outcome State Fault Refusal :=
  takeInput s

/-- `s` with the word offered on the command port, so that the next step runs it (log 3). -/
def State.withFetchWord (s : State) (nbits w : Nat) : State :=
  s.offer (tableWord nbits w)

end Sys2Proof.Machine
end

