-- ==== Sys2Proof/Machine/Flags.lean ====
section
/-! DEFINITION. The status word (R26). The engine has no condition codes (R24): STATUS, a view of PHASE and
the fault record, is the only flag word, and no command reads it. -/

namespace Sys2Proof.Machine

open Sys2Proof

/-- The 2-bit code of PHASE (R24, D20). -/
def phaseCode : Phase → BitVec 2
  | .uninit => 0
  | .ready => 1
  | .finalized => 2

/-- The 2-bit code of ERRCODE (R25, R162). -/
def errCodeBits : ErrCode → BitVec 2
  | .none => 0
  | .illegalCmd => 1
  | .badPhase => 2

/-- STATUS (R26): `[1:0]` PHASE, `[2]` ERR, `[4:3]` ERRCODE, `[7:5]` zero. -/
def State.status (s : State) : BitVec 8 :=
  0#3 ++ errCodeBits s.errcode ++ BitVec.ofBool s.err ++ phaseCode s.phase

end Sys2Proof.Machine
end

