-- ==== Sys2Proof/Machine/Ports.lean ====
section
/-! DEFINITION. The ports of R33 as views of the state: what the host reads (status, errcmd, digest,
cmd_ready) and what it offers next (cmd_valid, cmd, rst). `clk` has no architectural meaning (R33). -/

namespace Sys2Proof.Machine

open Sys2Proof

/-- `V[0] ∥ V[1] ∥ ... ∥ V[7]`, `V[0]` in bits [255:224] (R27). -/
def chainBits (v : Chain) : BitVec 256 :=
  v.v0 ++ v.v1 ++ v.v2 ++ v.v3 ++ v.v4 ++ v.v5 ++ v.v6 ++ v.v7

/-- `D[k]` on the port: `DIGEST[255-8k : 248-8k]` (R27). -/
def digestByte (d : BitVec 256) (k : Fin 32) : Byte :=
  d.extractLsb' (248 - 8 * k.val) 8

/-- The digest port (R27, R169): a value exactly when PHASE = FINALIZED and ERR = 0, no value otherwise. -/
def State.digest (s : State) : Option (BitVec 256) :=
  if s.phase = .finalized ∧ s.err = false then some (chainBits s.v) else none

/-- `cmd_ready` (R33, R186, R192): between commands, which is where a State stands, the engine can take a
command, faulted or not (R167). -/
def State.cmdReady (_s : State) : Bool := true

/-- The outputs of R33. -/
structure Outputs where
  cmdReady : Bool
  status : BitVec 8
  errcmd : CmdWord
  digest : Option (BitVec 256)
  deriving DecidableEq, Repr

/-- Everything the host can see (R194). -/
def State.outputs (s : State) : Outputs :=
  { cmdReady := s.cmdReady, status := s.status, errcmd := s.errcmd, digest := s.digest }

/-- `rst` (R33): the host's next input is a reset request. -/
def State.rst (s : State) : Bool :=
  match s.inputs with
  | .reset :: _ => true
  | _ => false

/-- `cmd_valid` and `cmd` (R33): the word offered, if one is. -/
def State.cmd (s : State) : Option CmdWord :=
  match s.inputs with
  | .command w :: _ => some w
  | _ => none

/-- CMD_LATENCY (R6, R192, D18): the clock cycles a command takes, which may depend on the command and the
state. An open parameter with no body: no rule and no definition of the model reads it; that it is a number
says only that every command ends (log 7). -/
opaque cmdLatency : CmdWord → State → Nat

end Sys2Proof.Machine
end

