-- ==== Sys2Proof/Machine/Hash.lean ====
section
/-! DEFINITION. The pseudo-commands UPDATE and HASH as command words (R68, R69), and the functions from a
message to its padded blocks and its digest that the engine computes (R142, R151). -/

namespace Sys2Proof.Machine

open Sys2Proof

/-- `be64(x)`: the 8-byte big-endian form (R142, R43). -/
def be64 (x : Count) : List Byte :=
  List.ofFn fun k : Fin 8 => bigEndianByte (n := 8) x k

/-- `z = (55 - n) mod 64`, between 0 and 63 (R142). -/
def padZeros (n : Nat) : Nat :=
  ((55 - (n : Int)) % 64).toNat

/-- `pad(M) = M ∥ 0x80 ∥ (z bytes 0x00) ∥ be64(8n)` (R142). -/
def pad (m : List Byte) : List Byte :=
  m ++ [0x80#8] ++ List.replicate (padZeros m.length) 0x00#8 ++ be64 (BitVec.ofNat 64 (8 * m.length))

/-- The consecutive 64-byte pieces of a byte string, in order; a shorter tail is no block (R142, R123). -/
def blocksOf (bytes : List Byte) : List Block :=
  (List.range (bytes.length / 64)).map fun t =>
    Vector.ofFn fun k : Fin 64 => bytes.getD (64 * t + k.val) 0

/-- `CF` folded over blocks in order (R151, R35 item 4). -/
def chainOver (v : Chain) (bs : List Block) : Chain :=
  bs.foldl cf v

/-- `SM3(M) = ser(H[m])` (R151). -/
def sm3 (cfg : Config) (m : List Byte) : Vector Byte 32 :=
  serialise (chainOver cfg.iv (blocksOf (pad m)))

/-- `UPDATE b0 ... b(n-1)` as command words (R68, R123); no word for no byte. -/
def updateWords (m : List Byte) : List CmdWord :=
  m.map fun b => encode (.absorb b)

/-- `HASH b0 ... b(n-1)` as command words (R69, R150). -/
def hashWords (m : List Byte) : List CmdWord :=
  encode .init :: updateWords m ++ [encode .final]

/-- A command stream as the host's inputs. -/
def asInputs (ws : List CmdWord) : List HostInput :=
  ws.map .command

/-- The valid bytes of the buffer, `BUF[0..fill-1]` (R23). -/
def State.validBytes (s : State) : List Byte :=
  s.buf.block.toList.take s.fill.val

end Sys2Proof.Machine
end

