-- ==== Sys2Proof/Machine/Asm.lean ====
section
/-! DEFINITION. The assembler lines of R67 to R69 as terms, and the words each stands for. The spelling of a
line as text (spaces, comments) is notation (D21) and is not modelled. -/

namespace Sys2Proof.Machine

open Sys2Proof

/-- The lines of R67, and the two pseudo-commands of R68 and R69. -/
inductive AsmLine where
  | init
  /-- `ABSORB 0xNN` -/
  | absorb (b : Byte)
  /-- `ABSORB 'c'`, one ASCII character -/
  | absorbChar (c : Char)
  | final
  /-- `.word 0xNNNN`, any word, used to write an illegal command -/
  | word (w : CmdWord)
  /-- `UPDATE b0 b1 ...` -/
  | update (bytes : List Byte)
  /-- `UPDATE "text"` -/
  | updateText (text : List Char)
  /-- `HASH b0 b1 ...` -/
  | hash (bytes : List Byte)
  /-- `HASH "text"` -/
  | hashText (text : List Char)
  deriving DecidableEq, Repr

/-- The ASCII byte of a character; no byte for a character outside ASCII (R9, R67). -/
def asciiByte (c : Char) : Option Byte :=
  if c.toNat < 128 then some (BitVec.ofNat 8 c.toNat) else none

/-- The words of a line; none when a character is not ASCII, which the notation does not admit. -/
def assemble : AsmLine → Option (List CmdWord)
  | .init => some [encode .init]
  | .absorb b => some [encode (.absorb b)]
  | .absorbChar c => (asciiByte c).map fun b => [encode (.absorb b)]
  | .final => some [encode .final]
  | .word w => some [w]
  | .update bs => some (updateWords bs)
  | .updateText cs => (cs.mapM asciiByte).map updateWords
  | .hash bs => some (hashWords bs)
  | .hashText cs => (cs.mapM asciiByte).map hashWords

/-- A program: its lines in order, one after the other. -/
def assembleAll (ls : List AsmLine) : Option (List CmdWord) :=
  (ls.mapM assemble).map List.flatten

end Sys2Proof.Machine
end

