-- ==== Sys2Proof/Safety.lean ====
section
/-! DEFINITION. What counts as the end of a run and as a good run (R193), the invariant of the engine (R22 to
R25, R35, R162), streams that respect the state machine (R160), and what no run can observe (R34, R50). -/

namespace Sys2Proof.Machine

open Sys2Proof

/-! ### Runs -/

/-- `k` steps, one input each (R52: the state after `c2` is `step(step(s, c1), c2)`). -/
def steps : Nat → State → Result
  | 0, s => .next s
  | k + 1, s =>
    match step s with
    | .next t => steps k t
    | .fault r => .fault r
    | .refused r => .refused r

/-! ### The end of a run -/

/-- The run is over: every word has been accepted (`cp = n` of R31 and R193). -/
def State.runOver (s : State) : Bool := s.inputs.isEmpty

/-- The run is final and good (R193). -/
def State.finalAndGood (s : State) : Bool := s.runOver && !s.err

/-- The run produced a digest (R193). -/
def State.producedDigest (s : State) : Bool := s.finalAndGood && decide (s.phase = .finalized)

/-! ### The invariant -/

/-- What holds of the engine in every state a run can reach, and is kept by every step from any state that
has it. -/
structure State.Inv (s : State) : Prop where
  /-- the buffer's canonical form (R40) -/
  bufWf : s.buf.wf = true
  /-- once INIT has run, every cell of the buffer holds a byte (R34, R50) -/
  bufWritten : s.phase ≠ .uninit → ∀ k : Offset, (s.buf.read k.val).isSome = true
  /-- once INIT has run, BITCNT is a multiple of 8 (R22, R35 item 1) -/
  wholeBytes : s.phase ≠ .uninit → s.bitcnt.toNat % 8 = 0
  /-- `ERRCODE = 0` exactly when `ERR = 0` (R25) -/
  codeAgrees : s.errcode = .none ↔ s.err = false
  /-- ERRCMD is 0 when ERR = 0 (R25) -/
  cmdClear : s.err = false → s.errcmd = 0x0000#16
  /-- the word recorded with ILLEGAL_CMD names no command (R162) -/
  illegalRecord : s.errcode = .illegalCmd → ∀ i, decode s.errcmd ≠ .ok i
  /-- BAD_PHASE is recorded outside READY only, with the word of an ABSORB or a FINAL (R162, R164) -/
  badPhaseRecord : s.errcode = .badPhase →
    s.phase ≠ .ready ∧ ∃ i, decode s.errcmd = .ok i ∧ i ≠ .init

/-! ### Streams that respect the state machine -/

/-- From a phase, the commands follow `(INIT ABSORB* FINAL?)*` (R160), the first group already begun when the
phase is not UNINIT. -/
def respects : Phase → List Instr → Bool
  | _, [] => true
  | _, .init :: rest => respects .ready rest
  | .ready, .absorb _ :: rest => respects .ready rest
  | .ready, .final :: rest => respects .finalized rest
  | .uninit, .absorb _ :: _ => false
  | .finalized, .absorb _ :: _ => false
  | .uninit, .final :: _ => false
  | .finalized, .final :: _ => false

/-- The phase in which such a stream ends. -/
def endPhase : Phase → List Instr → Phase
  | p, [] => p
  | _, .init :: rest => endPhase .ready rest
  | p, .absorb _ :: rest => endPhase p rest
  | _, .final :: rest => endPhase .finalized rest

/-! ### What no run can observe -/

/-- Two states that differ at most in what the spec calls unobservable: in UNINIT in V, BUF and BITCNT
(R34); in READY in the stale bytes of BUF (R50); in FINALIZED in BUF and BITCNT (R138); and in `cp`, which
no rule of the engine reads (R31, D6). -/
structure SameView (s t : State) : Prop where
  phase : s.phase = t.phase
  err : s.err = t.err
  errcode : s.errcode = t.errcode
  errcmd : s.errcmd = t.errcmd
  inputs : s.inputs = t.inputs
  ready : s.phase = .ready →
    s.v = t.v ∧ s.bitcnt = t.bitcnt ∧ ∀ k : Offset, k < s.fill → s.buf.byte k = t.buf.byte k
  finalized : s.phase = .finalized → s.v = t.v

end Sys2Proof.Machine
end

