-- ==== Sys2Proof/Certificates/Slice0/Obligations.lean ====
section
/-! DEFINITION. The statements for the provers, from the numbered rules of spec/. -/

open Sys2Proof Sys2Proof.Machine

/-- R61 to R65: the 258 legal words and the 258 commands correspond one to one. -/
def Obligations.CommandWordsDecodeExactly : Prop :=
  ∀ (w : CmdWord) (i : Instr), decode w = .ok i ↔ w = encode i

/-- R60, R61, R63: op is the high byte, imm8 the low one. -/
def Obligations.TabledWordsDecodeAsWritten : Prop :=
  decode (0x01#8 ++ 0x00#8) = .ok .init ∧
  decode (0x02#8 ++ 0x00#8) = .ok (.absorb 0x00) ∧
  decode (0x02#8 ++ 0x61#8) = .ok (.absorb 0x61) ∧
  decode (0x02#8 ++ 0x80#8) = .ok (.absorb 0x80) ∧
  decode (0x02#8 ++ 0xff#8) = .ok (.absorb 0xff) ∧
  decode (0x03#8 ++ 0x00#8) = .ok .final ∧
  decode 0x0101#16 = .error (.operandNotZero 0x01 0x01) ∧
  decode 0x0301#16 = .error (.operandNotZero 0x03 0x01) ∧
  decode 0x0000#16 = .error (.reservedOpcode 0x00) ∧
  decode 0x0002#16 = .error (.reservedOpcode 0x00) ∧
  decode 0x0400#16 = .error (.reservedOpcode 0x04) ∧
  decode 0x8200#16 = .error (.reservedOpcode 0x82) ∧
  decode 0xffff#16 = .error (.reservedOpcode 0xff)

/-- R64, first two sentences. -/
def Obligations.IllegalWordsAreTheReservedOnes : Prop :=
  (∀ w : CmdWord, (∃ e, decode w = .error e) ↔
    (w.extractLsb' 8 8 = 0x00#8 ∨ 4 ≤ (w.extractLsb' 8 8).toNat ∨
      ((w.extractLsb' 8 8 = 0x01#8 ∨ w.extractLsb' 8 8 = 0x03#8) ∧ w.extractLsb' 0 8 ≠ 0x00#8))) ∧
  (List.range 65536).countP (fun n => (decodeTableWord 16 n).isSome) = 258 ∧
  (List.range 65536).countP (fun n => (decodeTableWord 16 n).isNone) = 65278

/-- R165: every accepted word is handled by decode and then its own rule. The inputs field and cp are the host's side (log 3). -/
def Obligations.StepRunsTheDecodedCommand : Prop :=
  ∀ (s : State) (w : CmdWord) (rest : List HostInput) (i : Instr),
    s.inputs = .command w :: rest → decode w = .ok i →
    step s = exec i { s with cp := s.cp + 1, inputs := rest }

/-- R31, R52 and R165: steps on offered words run the stream, and no rule of the engine reads the host's side.
How the stream stands in the state is the model's choice (log 3). -/
def Obligations.StepsRunTheOfferedStream : Prop :=
  ∀ (s : State) (ws : List CmdWord) (rest : List HostInput), s.inputs = asInputs ws ++ rest →
    ∃ t, acceptAll ws s = .next t ∧ t.cp = s.cp ∧ t.inputs = s.inputs ∧
      steps ws.length s = .next { t with cp := s.cp + ws.length, inputs := rest }

/-- R180 and R34 for the reset input. That the inputs stand in the state is the model's choice (log 3); that a
step with no input holds the state is the model's deduction from R175 and R193 (log 9). -/
def Obligations.ResetAndIdleInputs : Prop :=
  (∀ (s : State) (rest : List HostInput), s.inputs = .reset :: rest →
    ∃ t, step s = .next t ∧ t.phase = .uninit ∧ t.err = false ∧ t.errcode = .none ∧
      t.errcmd = 0x0000#16 ∧ (∀ a, t.buf.read a = none) ∧ t.cp = 0 ∧ t.inputs = rest) ∧
  (∀ s : State, s.inputs = [] → step s = .next s)

/-- The table of R34. -/
def Obligations.ResetStateAsTabled : Prop :=
  State.reset.phase = .uninit ∧ State.reset.err = false ∧ State.reset.errcode = .none ∧
  State.reset.errcmd = 0x0000#16 ∧ (∀ a, State.reset.buf.read a = none) ∧ State.reset.cp = 0 ∧
  State.reset.status = 0x00#8 ∧ State.reset.digest = none

/-- R80, R81, R82: result, completion and frame of INIT. -/
def Obligations.InitLoadsTheFreshState : Prop :=
  ∀ s : State, s.err = false →
    ∃ t, exec .init s = .next t ∧
      t.v = ⟨0x7380166f, 0x4914b2b9, 0x172442d7, 0xda8a0600,
             0xa96f30bc, 0x163138aa, 0xe38dee4d, 0xb0fb0e4e⟩ ∧
      t.bitcnt = 0 ∧ t.phase = .ready ∧
      (∀ a, t.buf.read a = if a < 64 then some 0x00#8 else s.buf.read a) ∧
      t.err = false ∧ t.errcode = s.errcode ∧ t.errcmd = s.errcmd ∧ t.cp = s.cp ∧ t.inputs = s.inputs

/-- R81: in all three phases the resulting state is the same; it keeps nothing of the old hash. -/
def Obligations.InitKeepsNothingOfTheOldHash : Prop :=
  ∀ s t : State, s.err = false → t.err = false → s.buf.wf = true → t.buf.wf = true →
    s.errcode = t.errcode → s.errcmd = t.errcmd → s.cp = t.cp → s.inputs = t.inputs →
    exec .init s = exec .init t

/-- R120, R121, R122: result, completion and frame of ABSORB. -/
def Obligations.AbsorbStoresCountsAndCompresses : Prop :=
  ∀ (s : State) (b : Byte), s.err = false → s.phase = .ready →
    ∃ t, exec (.absorb b) s = .next t ∧
      (∀ a, t.buf.read a = if a = s.bitcnt.toNat / 8 % 64 then some b else s.buf.read a) ∧
      t.bitcnt.toNat = (s.bitcnt.toNat + 8) % 2 ^ 64 ∧
      (s.bitcnt.toNat / 8 % 64 ≠ 63 → t.v = s.v) ∧
      (s.bitcnt.toNat / 8 % 64 = 63 →
        t.v = cf s.v (Vector.ofFn fun k : Fin 64 => if k.val = 63 then b else s.buf.byte k)) ∧
      t.phase = .ready ∧ t.err = false ∧ t.errcode = s.errcode ∧ t.errcmd = s.errcmd ∧
      t.cp = s.cp ∧ t.inputs = s.inputs

/-- R23 and R122: the fill offset stays correct across the wrap. -/
def Obligations.FillOffsetAdvancesAcrossTheWrap : Prop :=
  ∀ c : Count,
    (fillOf c).val = c.toNat % 512 / 8 ∧
    (fillOf (c + 8)).val = ((fillOf c).val + 1) % 64 ∧
    (c.toNat % 8 = 0 → fillOf c = 63 → (c + 8).toNat % 512 = 0)

/-- R130 to R136 and R138: result, completion and frame of FINAL. -/
def Obligations.FinalPadsAndCompresses : Prop :=
  ∀ s : State, s.err = false → s.phase = .ready →
    ∃ t, exec .final s = .next t ∧
      (∀ a, t.buf.read a =
        if a < 56 then
          (if 56 ≤ s.fill.val then some 0x00#8
           else if a < s.fill.val then s.buf.read a
           else if a = s.fill.val then some 0x80#8 else some 0x00#8)
        else if a < 64 then some (s.bitcnt.extractLsb' (8 * (63 - a)) 8)
        else s.buf.read a) ∧
      (s.fill.val ≤ 55 → t.v = cf s.v t.buf.block) ∧
      (56 ≤ s.fill.val →
        t.v = cf (cf s.v (Vector.ofFn fun k : Fin 64 =>
            if k.val < s.fill.val then s.buf.byte k else if k = s.fill then 0x80#8 else 0x00#8))
          t.buf.block) ∧
      t.phase = .finalized ∧ t.bitcnt = s.bitcnt ∧ t.err = false ∧ t.errcode = s.errcode ∧
      t.errcmd = s.errcmd ∧ t.cp = s.cp ∧ t.inputs = s.inputs

/-- R164 and R166. -/
def Obligations.MisuseRaisesBadPhase : Prop :=
  (∀ (s : State) (b : Byte), s.err = false → s.phase ≠ .ready →
    exec (.absorb b) s =
      .next { s with err := true, errcode := .badPhase, errcmd := 0x02#8 ++ b }) ∧
  (∀ s : State, s.err = false → s.phase ≠ .ready →
    exec .final s = .next { s with err := true, errcode := .badPhase, errcmd := 0x0300#16 }) ∧
  (∀ s t : State, exec .init s = .next t →
    t.err = s.err ∧ t.errcode = s.errcode ∧ t.errcmd = s.errcmd)

/-- R163. -/
def Obligations.IllegalWordRaisesIllegalCmd : Prop :=
  (∀ (s : State) (w : CmdWord), s.err = false →
    w ≠ 0x0100#16 → (∀ b : Byte, w ≠ 0x02#8 ++ b) → w ≠ 0x0300#16 →
    acceptCommand w s = .next { s with err := true, errcode := .illegalCmd, errcmd := w }) ∧
  (∀ (i : Instr) (s t : State), exec i s = .next t → t.errcode = .illegalCmd → s.errcode = .illegalCmd) ∧
  (∃ t, acceptCommand 0x0000#16 State.reset = .next t ∧ t.err = true ∧ errCodeBits t.errcode = 1 ∧
    t.errcmd = 0x0000#16 ∧ t.phase = .uninit ∧ t.status = 0x0C#8)

/-- R166: fault entry does exactly this and nothing else; faults are precise. -/
def Obligations.FaultsArePrecise : Prop :=
  ∀ (s t : State) (w : CmdWord), acceptCommand w s = .next t → s.err = false → t.err = true →
    ∃ code : ErrCode,
      t = { s with err := true, errcode := code, errcmd := w } ∧
      (errCodeBits code = 1 ↔ ∃ e, decode w = .error e) ∧
      (errCodeBits code = 2 ↔ ∃ i, decode w = .ok i) ∧
      t.digest = none ∧ t.finalAndGood = false

/-- R167 for the discarding. That cmd_ready is 1 is the model's deduction (log 13): R167 says only that it does
not stay low for ever. -/
def Obligations.FaultedEngineDiscardsEveryCommand : Prop :=
  ∀ (s : State) (ws : List CmdWord), s.err = true →
    acceptAll ws s = .next s ∧ s.outputs.cmdReady = true ∧ s.finalAndGood = false

/-- R168: no command clears ERR; only reset does. -/
def Obligations.OnlyResetClearsTheFaultRecord : Prop :=
  ∀ s t : State, step s = .next t → s.err = true →
    ((∃ rest, s.inputs = .reset :: rest) ∧
      t.err = false ∧ t.errcode = .none ∧ t.errcmd = 0x0000#16 ∧ t.phase = .uninit) ∨
    ((∀ rest, s.inputs ≠ .reset :: rest) ∧
      t.err = true ∧ t.errcode = s.errcode ∧ t.errcmd = s.errcmd)

/-- R165 is total. -/
def Obligations.EveryCommandAnswersANextState : Prop :=
  (∀ (i : Instr) (s : State), ∃ t, exec i s = .next t) ∧ (∀ s : State, ∃ t, step s = .next t)

/-- R22, R25, R35, R50, R162, R164, together. -/
def Obligations.StepKeepsTheInvariant : Prop :=
  ∀ s t : State, s.Inv → step s = .next t → t.Inv

/-- The base of StepKeepsTheInvariant. -/
def Obligations.ResetStateHasTheInvariant : Prop :=
  State.reset.Inv

/-- R26. -/
def Obligations.StatusWordFields : Prop :=
  (∀ s : State,
    s.status.extractLsb' 0 2 = (match s.phase with | .uninit => 0#2 | .ready => 1#2 | .finalized => 2#2) ∧
    s.status.extractLsb' 0 2 ≠ 3#2 ∧
    s.status.getLsbD 2 = s.err ∧
    s.status.extractLsb' 3 2 =
      (match s.errcode with | .none => 0#2 | .illegalCmd => 1#2 | .badPhase => 2#2) ∧
    s.status.extractLsb' 5 3 = 0#3 ∧
    s.outputs.status = s.status ∧ s.outputs.errcmd = s.errcmd) ∧
  State.reset.status = 0x00#8

/-- 96_test_programs.md section 6.5, from R164 and R167. -/
def Obligations.OnlyEightStatusValuesOccur : Prop :=
  ∀ s : State, s.Inv →
    s.status ∈ [0x00#8, 0x01#8, 0x02#8, 0x0C#8, 0x0D#8, 0x0E#8, 0x14#8, 0x16#8]

/-- R27 and R44. -/
def Obligations.DigestPortShowsTheChainingValue : Prop :=
  (∀ s : State, s.digest.isSome = true ↔ s.phase = .finalized ∧ s.err = false) ∧
  (∀ s : State, s.outputs.digest = s.digest) ∧
  (∀ (s : State) (d : BitVec 256), s.digest = some d →
    (∀ i : Fin 8, d.extractLsb' (224 - 32 * i.val) 32 = chainWord s.v i) ∧
    ∀ k : Fin 32, d.extractLsb' (248 - 8 * k.val) 8 = (serialise s.v)[k.val]) ∧
  (∀ (v : Chain) (i : Fin 8) (k : Fin 4),
    (serialise v)[4 * i.val + k.val]? = some ((chainWord v i).extractLsb' (24 - 8 * k.val) 8)) ∧
  (∀ v : Chain, v.v0 = 0x66c7f0f4#32 → (serialise v).toList.take 4 = [0x66#8, 0xc7#8, 0xf0#8, 0xf4#8])

/-- The writers listed in R20, R21, R22 and R24. -/
def Obligations.OnlyNamedCommandsWriteTheRegisters : Prop :=
  ∀ (s t : State) (w : CmdWord) (rest : List HostInput),
    s.inputs = .command w :: rest → step s = .next t →
    (t.v ≠ s.v → s.err = false ∧
      (w = 0x0100#16 ∨ w = 0x0300#16 ∨ ((∃ b : Byte, w = 0x02#8 ++ b) ∧ s.fill = 63))) ∧
    (t.bitcnt ≠ s.bitcnt → s.err = false ∧ (w = 0x0100#16 ∨ ∃ b : Byte, w = 0x02#8 ++ b)) ∧
    (t.phase ≠ s.phase → s.err = false ∧ (w = 0x0100#16 ∨ w = 0x0300#16)) ∧
    (∀ a, t.buf.read a ≠ s.buf.read a → s.err = false ∧
      (w = 0x0100#16 ∨ w = 0x0300#16 ∨ ((∃ b : Byte, w = 0x02#8 ++ b) ∧ a = s.fill.val)))

/-- R24. -/
def Obligations.PhaseFollowsTheStateMachine : Prop :=
  ∀ (s t : State) (w : CmdWord) (rest : List HostInput),
    s.inputs = .command w :: rest → step s = .next t →
    t.phase = s.phase ∨ (t.phase = .ready ∧ w = 0x0100#16) ∨
      (t.phase = .finalized ∧ s.phase = .ready ∧ w = 0x0300#16)

/-- R160. -/
def Obligations.StreamsThatRespectThePhasesNeverFault : Prop :=
  ∀ (s : State) (is : List Instr) (rest : List HostInput), s.err = false →
    respects s.phase is = true → s.inputs = asInputs (is.map encode) ++ rest →
    ∃ t, steps is.length s = .next t ∧ t.err = false ∧ t.errcode = s.errcode ∧ t.errcmd = s.errcmd ∧
      t.phase = endPhase s.phase is ∧ t.cp = s.cp + is.length ∧ t.inputs = rest

/-- R90. -/
def Obligations.RotlMovesEveryBit : Prop :=
  ∀ (x : Word) (n : Fin 32),
    (∀ k : Fin 32, (rotl x n).getLsbD ((k.val + n.val) % 32) = x.getLsbD k.val) ∧ rotl x 0 = x

/-- R92. -/
def Obligations.PermutationP0 : Prop :=
  (∀ x : Word, p0 x = x ^^^ rotl x 9 ^^^ rotl x 17) ∧ Function.Bijective p0 ∧
  p0 0x00000000 = 0x00000000 ∧ p0 0x00000001 = 0x00020201 ∧ p0 0x80000000 = 0x80010100 ∧
  p0 0x12345678 = 0xd6688234 ∧ p0 0xffffffff = 0xffffffff

/-- R111, from R90, R94 and R104. -/
def Obligations.RotatedConstantsAsTabled : Prop :=
  (∀ j : Fin 64, rotatedConstant j.val =
    rotl (if j.val < 16 then 0x79cc4519#32 else 0x7a879d8a#32) ⟨j.val % 32, by omega⟩) ∧
  (List.range 64).map rotatedConstant =
      [0x79cc4519, 0xf3988a32, 0xe7311465, 0xce6228cb, 0x9cc45197, 0x3988a32f, 0x7311465e, 0xe6228cbc,
       0xcc451979, 0x988a32f3, 0x311465e7, 0x6228cbce, 0xc451979c, 0x88a32f39, 0x11465e73, 0x228cbce6,
       0x9d8a7a87, 0x3b14f50f, 0x7629ea1e, 0xec53d43c, 0xd8a7a879, 0xb14f50f3, 0x629ea1e7, 0xc53d43ce,
       0x8a7a879d, 0x14f50f3b, 0x29ea1e76, 0x53d43cec, 0xa7a879d8, 0x4f50f3b1, 0x9ea1e762, 0x3d43cec5,
       0x7a879d8a, 0xf50f3b14, 0xea1e7629, 0xd43cec53, 0xa879d8a7, 0x50f3b14f, 0xa1e7629e, 0x43cec53d,
       0x879d8a7a, 0x0f3b14f5, 0x1e7629ea, 0x3cec53d4, 0x79d8a7a8, 0xf3b14f50, 0xe7629ea1, 0xcec53d43,
       0x9d8a7a87, 0x3b14f50f, 0x7629ea1e, 0xec53d43c, 0xd8a7a879, 0xb14f50f3, 0x629ea1e7, 0xc53d43ce,
       0x8a7a879d, 0x14f50f3b, 0x29ea1e76, 0x53d43cec, 0xa7a879d8, 0x4f50f3b1, 0x9ea1e762, 0x3d43cec5] ∧
  (∀ j : Fin 64, 16 ≤ j.val → j.val ≤ 31 → rotatedConstant j.val = rotatedConstant (j.val + 32))

/-- R98, R99, R100, and P1 of R93, which the recurrence uses. -/
def Obligations.ScheduleFollowsTheRecurrence : Prop :=
  ((∀ x : Word, p1 x = x ^^^ rotl x 15 ^^^ rotl x 23) ∧
    p1 0x00000000 = 0x00000000 ∧ p1 0x00000001 = 0x00808001 ∧ p1 0x80000000 = 0x80404000 ∧
    p1 0x12345678 = 0x05014549 ∧ p1 0x61626380 = 0x9092e200) ∧
  ∀ b : Block,
    (schedule b).length = 68 ∧ (derivedWords (schedule b)).length = 64 ∧
    (∀ i : Fin 16, (schedule b)[i.val]? =
      some (b[4 * i.val] ++ b[4 * i.val + 1] ++ b[4 * i.val + 2] ++ b[4 * i.val + 3])) ∧
    (∀ i, 16 ≤ i → i < 68 → (schedule b)[i]? =
      some (p1 (scheduleWord (schedule b) (i - 16) ^^^ scheduleWord (schedule b) (i - 9) ^^^
            rotl (scheduleWord (schedule b) (i - 3)) 15)
          ^^^ rotl (scheduleWord (schedule b) (i - 13)) 7 ^^^ scheduleWord (schedule b) (i - 6))) ∧
    (∀ i, i < 64 → (derivedWords (schedule b))[i]? =
      some (scheduleWord (schedule b) i ^^^ scheduleWord (schedule b) (i + 4)))

/-- R102, R103; R96, R97 bit by bit. -/
def Obligations.RoundWritesFromOneSnapshot : Prop :=
  (∀ (a b c d e f g h wj w1j : Word) (j : Nat),
    round ⟨a, b, c, d, e, f, g, h⟩ j wj w1j =
      ⟨ff a b c j + d + (rotl (rotl a 12 + e + rotatedConstant j) 7 ^^^ rotl a 12) + w1j,
       a, rotl b 9, c,
       p0 (gg e f g j + h + rotl (rotl a 12 + e + rotatedConstant j) 7 + wj),
       e, rotl f 19, g⟩) ∧
  (∀ (x y z : Word) (j : Nat) (k : Fin 32), j < 16 →
    (ff x y z j).getLsbD k.val = (x.getLsbD k.val ^^ (y.getLsbD k.val ^^ z.getLsbD k.val)) ∧
    (gg x y z j).getLsbD k.val = (x.getLsbD k.val ^^ (y.getLsbD k.val ^^ z.getLsbD k.val))) ∧
  (∀ (x y z : Word) (j : Nat) (k : Fin 32), 16 ≤ j →
    ((ff x y z j).getLsbD k.val = true ↔
      2 ≤ (x.getLsbD k.val).toNat + (y.getLsbD k.val).toNat + (z.getLsbD k.val).toNat) ∧
    (gg x y z j).getLsbD k.val = if x.getLsbD k.val then y.getLsbD k.val else z.getLsbD k.val)

/-- R107 line by line: R98 to R100 for the schedule, R101 for the load, R102 and R105 for the 64 rounds in order,
R106 for the combination, and what COMPRESS writes. The words W and W1 and the working variables r j at the
start of round j exist for every v and b, and these clauses leave each of them, and so CF, one value.
R107's corner cases are stated by its examples, for V = IV and V = 0. -/
def Obligations.CompressIsSixtyFourRoundsAndXor : Prop :=
  (∀ (v : Chain) (b : Block), ∃ (W W1 : Nat → Word) (r : Nat → WorkVars),
    (∀ i : Fin 16, W i.val = b[4 * i.val] ++ b[4 * i.val + 1] ++ b[4 * i.val + 2] ++ b[4 * i.val + 3]) ∧
    (∀ i, 16 ≤ i → i ≤ 67 → W i =
      p1 (W (i - 16) ^^^ W (i - 9) ^^^ rotl (W (i - 3)) 15) ^^^ rotl (W (i - 13)) 7 ^^^ W (i - 6)) ∧
    (∀ i, i ≤ 63 → W1 i = W i ^^^ W (i + 4)) ∧
    r 0 = ⟨v.v0, v.v1, v.v2, v.v3, v.v4, v.v5, v.v6, v.v7⟩ ∧
    (∀ j, j ≤ 63 → ∃ ss1 ss2 tt1 tt2 : Word,
      ss1 = rotl (rotl (r j).a 12 + (r j).e + rotl (roundConstant j) (Fin.ofNat 32 j)) 7 ∧
      ss2 = ss1 ^^^ rotl (r j).a 12 ∧
      tt1 = ff (r j).a (r j).b (r j).c j + (r j).d + ss2 + W1 j ∧
      tt2 = gg (r j).e (r j).f (r j).g j + (r j).h + ss1 + W j ∧
      r (j + 1) = ⟨tt1, (r j).a, rotl (r j).b 9, (r j).c, p0 tt2, (r j).e, rotl (r j).f 19, (r j).g⟩) ∧
    cf v b = ⟨v.v0 ^^^ (r 64).a, v.v1 ^^^ (r 64).b, v.v2 ^^^ (r 64).c, v.v3 ^^^ (r 64).d,
              v.v4 ^^^ (r 64).e, v.v5 ^^^ (r 64).f, v.v6 ^^^ (r 64).g, v.v7 ^^^ (r 64).h⟩) ∧
  (∀ s : State, s.compress =
    { s with v := cf s.v (Vector.ofFn fun k : Fin 64 => s.buf.byte k) }) ∧
  cf ⟨0x7380166f, 0x4914b2b9, 0x172442d7, 0xda8a0600, 0xa96f30bc, 0x163138aa, 0xe38dee4d, 0xb0fb0e4e⟩
      (Vector.ofFn fun k : Fin 64 =>
        if k = 0 then 0x61#8 else if k = 1 then 0x62#8 else if k = 2 then 0x63#8
        else if k = 3 then 0x80#8 else if k = 63 then 0x18#8 else 0x00#8) =
    ⟨0x66c7f0f4, 0x62eeedd9, 0xd1f2d46b, 0xdc10e4e2, 0x4167c487, 0x5cf2f7a2, 0x297da02b, 0x8f4ba8e0⟩ ∧
  cf ⟨0x7380166f, 0x4914b2b9, 0x172442d7, 0xda8a0600, 0xa96f30bc, 0x163138aa, 0xe38dee4d, 0xb0fb0e4e⟩
      (Vector.replicate 64 0x00#8) =
    ⟨0xa1203a40, 0x4a5566cd, 0x536fcee8, 0x20df7e13, 0x35c58f56, 0xb7c4c62e, 0x813c32cc, 0x47bf9b6c⟩ ∧
  cf ⟨0, 0, 0, 0, 0, 0, 0, 0⟩ (Vector.replicate 64 0x00#8) =
    ⟨0x2762550f, 0x18134933, 0xba35ce4e, 0x0a757e65, 0x8c0e7205, 0xfe9e4ff6, 0x5ac5c88b, 0xa3649ac2⟩

/-- R142. -/
def Obligations.PaddedMessageIsWholeBlocks : Prop :=
  ∀ m : List Byte,
    (pad m).length = 64 * ((m.length + 8) / 64 + 1) ∧
    (blocksOf (pad m)).length = (m.length + 8) / 64 + 1 ∧
    (pad m).take m.length = m ∧
    (pad m)[m.length]? = some 0x80#8 ∧
    padZeros m.length ≤ 63 ∧
    (m.length + 1 + padZeros m.length + 8) % 64 = 0 ∧
    (∀ z, z < padZeros m.length → (m.length + 1 + z + 8) % 64 ≠ 0) ∧
    (∀ k, k < padZeros m.length → (pad m)[m.length + 1 + k]? = some 0x00#8) ∧
    (∀ k : Fin 8, (pad m)[m.length + 1 + padZeros m.length + k.val]? =
      some ((BitVec.ofNat 64 (8 * m.length)).extractLsb' (8 * (7 - k.val)) 8))

/-- R123, the closed form. -/
def Obligations.UpdateInClosedForm : Prop :=
  ∀ (s : State) (m : List Byte) (rest : List HostInput), s.err = false → s.phase = .ready →
    s.inputs = asInputs (updateWords m) ++ rest →
    ∃ t, steps m.length s = .next t ∧
      t.v = chainOver s.v (blocksOf (s.validBytes ++ m)) ∧
      t.bitcnt.toNat = (s.bitcnt.toNat + 8 * m.length) % 2 ^ 64 ∧
      t.fill.val = (s.fill.val + m.length) % 64 ∧
      t.validBytes = (s.validBytes ++ m).drop (64 * ((s.fill.val + m.length) / 64)) ∧
      t.phase = .ready ∧ t.err = false ∧ t.errcode = s.errcode ∧ t.errcmd = s.errcmd ∧
      t.cp = s.cp + m.length ∧ t.inputs = rest

/-- R151 (and with it R124, R150, R153): the engine computes SM3. -/
def Obligations.HashStreamLeavesTheSM3Digest : Prop :=
  ∀ (s : State) (chunks : List (List Byte)), s.err = false → chunks.flatten.length < 2 ^ 61 →
    (∃ t, acceptAll (0x0100#16 :: (chunks.map updateWords).flatten ++ [0x0300#16]) s = .next t ∧
      t.phase = .finalized ∧ t.err = false ∧
      (blocksOf (pad chunks.flatten)).length = (chunks.flatten.length + 8) / 64 + 1 ∧
      t.v = chainOver Config.engine.iv (blocksOf (pad chunks.flatten)) ∧
      ∃ d, t.digest = some d ∧
        ∀ k : Fin 32, digestByte d k = (sm3 Config.engine chunks.flatten)[k.val]) ∧
    (∀ n, n ≤ chunks.flatten.length →
      ∃ u, acceptAll (0x0100#16 :: updateWords (chunks.flatten.take n)) s = .next u ∧
        u.v = chainOver Config.engine.iv (blocksOf (chunks.flatten.take n)))

/-- R34 (no run depends on the reset contents), R50 (stale bytes are never read), R138.Among the ports
compared, cmd_ready is 1 in every state (log 13). -/
def Obligations.UnobservableStateStaysUnobserved : Prop :=
  (∀ s t : State, SameView s t → s.outputs = t.outputs) ∧
  (∀ s t s' t' : State, SameView s t → step s = .next s' → step t = .next t' → SameView s' t')

/-- R152. Among the ports compared, cmd_ready is 1 in every state (log 13). -/
def Obligations.RunsFromInitDependOnTheStreamAlone : Prop :=
  ∀ (s t s' t' : State) (rest : List HostInput) (k : Nat), s.err = false → t.err = false →
    s.errcode = t.errcode → s.errcmd = t.errcmd →
    s.inputs = .command 0x0100#16 :: rest → t.inputs = .command 0x0100#16 :: rest →
    steps (k + 1) s = .next s' → steps (k + 1) t = .next t' → s'.outputs = t'.outputs

/-- R67, R68, R69, R124, line form by line form. Lines stand as terms, and a character outside ASCII, of which
R67 does not speak, gives no words: the model's choice (log 14). -/
def Obligations.PseudoCommandsExpand : Prop :=
  (assemble .init = some [0x0100#16] ∧
    (∀ b : Byte, assemble (.absorb b) = some [(0x02#8 ++ b : CmdWord)]) ∧
    (∀ c : Char, c.toNat < 128 →
      assemble (.absorbChar c) = some [(0x02#8 ++ BitVec.ofNat 8 c.toNat : CmdWord)]) ∧
    assemble .final = some [0x0300#16] ∧
    (∀ w : CmdWord, assemble (.word w) = some [w])) ∧
  (∀ m : List Byte, updateWords m = m.map (fun b => (0x02#8 ++ b : CmdWord)) ∧
    assemble (.update m) = some (updateWords m) ∧
    assembleAll (m.map .absorb) = some (updateWords m)) ∧
  (∀ m : List Byte, hashWords m =
      0x0100#16 :: m.map (fun b => (0x02#8 ++ b : CmdWord)) ++ [0x0300#16] ∧
    (hashWords m).length = m.length + 2 ∧ assemble (.hash m) = some (hashWords m) ∧
    assembleAll [.init, .update m, .final] = some (hashWords m)) ∧
  (∀ text : List Char, (∀ c ∈ text, c.toNat < 128) →
    assemble (.updateText text) = some (updateWords (text.map fun c => BitVec.ofNat 8 c.toNat)) ∧
    assemble (.hashText text) = some (hashWords (text.map fun c => BitVec.ofNat 8 c.toNat))) ∧
  ((∀ c : Char, 128 ≤ c.toNat → assemble (.absorbChar c) = none) ∧
    ∀ text : List Char, (∃ c ∈ text, 128 ≤ c.toNat) →
      assemble (.updateText text) = none ∧ assemble (.hashText text) = none) ∧
  (assembleAll [] = some [] ∧
    ∀ (l : AsmLine) (ls : List AsmLine), assembleAll (l :: ls) =
      (assemble l).bind fun ws => (assembleAll ls).map fun vs => ws ++ vs) ∧
  (∀ chunks : List (List Byte), (chunks.map updateWords).flatten = updateWords chunks.flatten)
end

