-- ==== Sys2Proof/Laws/Memory.lean ====
section
/-! SUPPORT. The block buffer: what a read gives after each write, that every operation keeps the canonical
form, and that two buffers in that form with the same bytes are the same data. -/

namespace Sys2Proof.Machine

open Sys2Proof

/-! ### One cell -/

theorem Memory.read_put (m : Memory) (a k : Nat) (b : Byte) :
    Memory.read (Memory.put m a b) k = if k = a then some b else Memory.read m k := by
  have hflip : (a = k) = (k = a) := propext eq_comm
  induction m with
  | nil => simp [Memory.put, Memory.read, hflip]
  | cons c rest ih =>
    obtain ⟨x, y⟩ := c
    simp only [Memory.put]
    split
    · simp only [Memory.read, hflip]
    · split
      · rename_i _ hax
        subst hax
        simp only [Memory.read, hflip]
        split <;> rfl
      · rename_i _ hax
        simp only [Memory.read, ih]
        by_cases hk : k = a
        · rw [if_pos hk, if_pos hk, if_neg (fun h => hax (hk.symm.trans h.symm))]
        · rw [if_neg hk, if_neg hk]

/-- A read after a write gives the byte written there, and every other offset is left alone. -/
@[simp] theorem Memory.read_write (m : Memory) (a : Offset) (k : Nat) (b : Byte) :
    (m.write a b).read k = if k = a.val then some b else m.read k :=
  Memory.read_put m a.val k b

theorem Memory.wf_iff (m : Memory) :
    m.wf = true ↔ m.Pairwise (fun x y => x.1 < y.1) ∧ ∀ c ∈ m, c.1 < 64 := by
  simp [Memory.wf]

theorem Memory.mem_put {m : Memory} {a : Nat} {b : Byte} {c : Host.Cell}
    (h : c ∈ Memory.put m a b) : c.1 = a ∨ c ∈ m := by
  induction m with
  | nil => simp_all [Memory.put]
  | cons d rest ih =>
    obtain ⟨x, y⟩ := d
    simp only [Memory.put] at h
    split at h
    · simp only [List.mem_cons] at h ⊢; rcases h with rfl | h <;> simp_all
    · split at h
      · simp only [List.mem_cons] at h ⊢; rcases h with rfl | h <;> simp_all
      · simp only [List.mem_cons] at h ⊢
        rcases h with rfl | h
        · simp
        · rcases ih h with h | h <;> simp [h]

theorem Memory.wf_put {m : Memory} (h : m.wf = true) (a : Nat) (ha : a < 64) (b : Byte) :
    Memory.wf (Memory.put m a b) = true := by
  rw [Memory.wf_iff] at h ⊢
  obtain ⟨hs, hb⟩ := h
  refine ⟨?_, fun c hc => ?_⟩
  · clear hb
    induction m with
    | nil => simp [Memory.put]
    | cons d rest ih =>
      obtain ⟨x, y⟩ := d
      rw [List.pairwise_cons] at hs
      simp only [Memory.put]
      split
      · rename_i hlt
        refine List.pairwise_cons.2 ⟨fun c hc => ?_, List.pairwise_cons.2 hs⟩
        rcases List.mem_cons.1 hc with rfl | hc
        · exact hlt
        · exact lt_trans hlt (hs.1 c hc)
      · split
        · rename_i _ heq
          subst heq
          exact List.pairwise_cons.2 ⟨fun c hc => hs.1 c hc, hs.2⟩
        · rename_i h1 h2
          refine List.pairwise_cons.2 ⟨fun c hc => ?_, ih hs.2⟩
          rcases Memory.mem_put hc with hc | hc
          · simp only [hc]; omega
          · exact hs.1 c hc
  · rcases Memory.mem_put hc with hc | hc
    · omega
    · exact hb c hc

theorem Memory.wf_write {m : Memory} (h : m.wf = true) (a : Offset) (b : Byte) :
    (m.write a b).wf = true :=
  Memory.wf_put h a.val a.isLt b

/-! ### Runs of cells -/

theorem Memory.wf_foldl_write {α : Type} (l : List α) (at_ : α → Offset) (byte : α → Byte) :
    ∀ m : Memory, m.wf = true → (l.foldl (fun m k => m.write (at_ k) (byte k)) m).wf = true := by
  induction l with
  | nil => intro m h; exact h
  | cons x xs ih => intro m h; exact ih _ (Memory.wf_write h _ _)

theorem Memory.wf_zeroFill {m : Memory} (h : m.wf = true) (start stop : Nat) :
    (m.zeroFill start stop).wf = true := by
  rw [Memory.zeroFill]
  exact Memory.wf_foldl_write _ (fun k => k) (fun _ => 0x00#8) m h

theorem Memory.wf_writeBE {m : Memory} (hm : m.wf = true) (addr n : Nat) (v : BitVec (8 * n))
    (h : addr + n ≤ 64) : (m.writeBE addr n v h).wf = true := by
  rw [Memory.writeBE]
  exact Memory.wf_foldl_write _ _ (bigEndianByte v) m hm

theorem Memory.read_foldl_zero (l : List Offset) (a : Nat) :
    ∀ m : Memory, (l.foldl (fun m k => m.write k 0x00#8) m).read a =
      if ∃ k ∈ l, k.val = a then some 0x00#8 else m.read a := by
  induction l with
  | nil => intro m; simp
  | cons x xs ih =>
    intro m
    rw [List.foldl_cons, ih, Memory.read_write]
    by_cases hx : x.val = a
    · simp [hx]
    · have : a ≠ x.val := fun h => hx h.symm
      simp [hx, this]

/-- Zero filling writes 0x00 to the offsets `start..stop-1` of the buffer and leaves the rest alone. -/
theorem Memory.read_zeroFill (m : Memory) (start stop a : Nat) :
    (m.zeroFill start stop).read a =
      if start ≤ a ∧ a < stop ∧ a < 64 then some 0x00#8 else m.read a := by
  rw [Memory.zeroFill, Memory.read_foldl_zero]
  congr 1
  simp only [List.mem_filter, List.mem_finRange, true_and, decide_eq_true_eq, eq_iff_iff]
  constructor
  · rintro ⟨k, ⟨h1, h2⟩, rfl⟩; exact ⟨h1, h2, k.isLt⟩
  · rintro ⟨h1, h2, h3⟩; exact ⟨⟨a, h3⟩, ⟨h1, h2⟩, rfl⟩

theorem Memory.read_foldl_other {α : Type} (l : List α) (at_ : α → Offset) (byte : α → Byte) (a : Nat)
    (ha : ∀ k ∈ l, (at_ k).val ≠ a) :
    ∀ m : Memory, (l.foldl (fun m k => m.write (at_ k) (byte k)) m).read a = m.read a := by
  induction l with
  | nil => intro m; rfl
  | cons x xs ih =>
    intro m
    rw [List.foldl_cons, ih (fun k hk => ha k (List.mem_cons_of_mem _ hk)), Memory.read_write,
      if_neg (fun h => ha x List.mem_cons_self h.symm)]

theorem Memory.read_foldl_at {α : Type} (l : List α) (at_ : α → Offset) (byte : α → Byte) (x : α)
    (hx : x ∈ l) (hl : l.Pairwise fun y z => at_ y ≠ at_ z) :
    ∀ m : Memory, (l.foldl (fun m k => m.write (at_ k) (byte k)) m).read (at_ x).val = some (byte x) := by
  induction l with
  | nil => simp at hx
  | cons y ys ih =>
    intro m
    rw [List.pairwise_cons] at hl
    rw [List.foldl_cons]
    rcases List.mem_cons.1 hx with rfl | hx
    · rw [Memory.read_foldl_other ys at_ byte _ (fun k hk h => hl.1 k hk (Fin.ext h.symm))]
      simp
    · exact ih hx hl.2 _

/-- `MemWrite` puts byte `k` of the number at `addr + k`, most significant first (R10). -/
theorem Memory.read_writeBE_inside (m : Memory) (addr n : Nat) (v : BitVec (8 * n)) (h : addr + n ≤ 64)
    (k : Fin n) : (m.writeBE addr n v h).read (addr + k.val) = some (bigEndianByte v k) := by
  rw [Memory.writeBE]
  refine Memory.read_foldl_at (List.finRange n)
    (fun k => ⟨addr + k.val, Nat.lt_of_lt_of_le (Nat.add_lt_add_left k.isLt addr) h⟩)
    (bigEndianByte v) k (List.mem_finRange k) ?_ m
  refine List.Pairwise.imp (fun {y z} hyz => ?_) (List.nodup_finRange n)
  intro he
  exact hyz (Fin.ext (by have := congrArg Fin.val he; simpa using this))

/-- `MemWrite` leaves every offset outside its `n` bytes alone. -/
theorem Memory.read_writeBE_outside (m : Memory) (addr n : Nat) (v : BitVec (8 * n)) (h : addr + n ≤ 64)
    (a : Nat) (ha : a < addr ∨ addr + n ≤ a) : (m.writeBE addr n v h).read a = m.read a := by
  rw [Memory.writeBE]
  refine Memory.read_foldl_other _ _ _ a (fun k _ => ?_) m
  have := k.isLt
  simp only [ne_eq]
  omega

/-! ### The whole buffer -/

theorem Memory.block_eq (m : Memory) : m.block = Vector.ofFn fun k => m.byte k := by
  rw [Memory.block]

@[simp] theorem Memory.getElem_block (m : Memory) (k : Nat) (hk : k < 64) :
    m.block[k] = m.byte ⟨k, hk⟩ := by
  simp [Memory.block]

theorem Memory.block_eq_iff (m m' : Memory) :
    m.block = m'.block ↔ ∀ k : Offset, m.byte k = m'.byte k := by
  constructor
  · intro h k
    have := congrArg (fun b : Block => b[k.val]) h
    simpa using this
  · intro h
    ext k hk
    simp [h]

theorem Memory.read_of_lt {m : Memory} {a : Nat} (h : ∀ c ∈ m, a < c.1) : m.read a = none := by
  induction m with
  | nil => rfl
  | cons c rest ih =>
    obtain ⟨x, y⟩ := c
    have := h (x, y) List.mem_cons_self
    simp only [Memory.read]
    rw [if_neg (by simp only at this; omega)]
    exact ih fun c hc => h c (List.mem_cons_of_mem _ hc)

/-- In canonical form, equal bytes everywhere means equal data. -/
theorem Memory.ext_of_wf {m m' : Memory} (h : m.wf = true) (h' : m'.wf = true)
    (hr : ∀ a, m.read a = m'.read a) : m = m' := by
  rw [Memory.wf_iff] at h h'
  replace h := h.1
  replace h' := h'.1
  induction m generalizing m' with
  | nil =>
    cases m' with
    | nil => rfl
    | cons c rest =>
      have := hr c.1
      obtain ⟨x, y⟩ := c
      simp [Memory.read] at this
  | cons c rest ih =>
    obtain ⟨x, y⟩ := c
    cases m' with
    | nil => have := hr x; simp [Memory.read] at this
    | cons d rest' =>
      obtain ⟨x', y'⟩ := d
      rw [List.pairwise_cons] at h h'
      have hx : x = x' := by
        rcases lt_trichotomy x x' with hlt | heq | hgt
        · have h1 := hr x
          rw [Memory.read_of_lt (m := (x', y') :: rest')] at h1
          · simp [Memory.read] at h1
          · intro c hc
            rcases List.mem_cons.1 hc with rfl | hc
            · exact hlt
            · exact lt_trans hlt (h'.1 c hc)
        · exact heq
        · have h1 := hr x'
          rw [Memory.read_of_lt (m := (x, y) :: rest)] at h1
          · simp [Memory.read] at h1
          · intro c hc
            rcases List.mem_cons.1 hc with rfl | hc
            · exact hgt
            · exact lt_trans hgt (h.1 c hc)
      subst hx
      have hy : y = y' := by have h1 := hr x; simpa [Memory.read] using h1
      subst hy
      refine congrArg _ (ih (fun a => ?_) h.2 h'.2)
      by_cases ha : x = a
      · subst ha
        rw [Memory.read_of_lt h.1, Memory.read_of_lt h'.1]
      · have h1 := hr a
        simpa [Memory.read, ha] using h1

end Sys2Proof.Machine
end

