-- ==== Sys2Proof/Laws/State.lean ====
section
/-! SUPPORT. One lemma per field per update of the state, each true by unfolding, so that no later proof
unfolds a record update. -/

namespace Sys2Proof.Machine

open Sys2Proof

/-! `State.setV` -/

@[simp] theorem State.setV_v (s : State) (v : Chain) : (s.setV v).v = v := rfl
@[simp] theorem State.setV_buf (s : State) (v : Chain) : (s.setV v).buf = s.buf := rfl
@[simp] theorem State.setV_bitcnt (s : State) (v : Chain) : (s.setV v).bitcnt = s.bitcnt := rfl
@[simp] theorem State.setV_phase (s : State) (v : Chain) : (s.setV v).phase = s.phase := rfl
@[simp] theorem State.setV_err (s : State) (v : Chain) : (s.setV v).err = s.err := rfl
@[simp] theorem State.setV_errcode (s : State) (v : Chain) : (s.setV v).errcode = s.errcode := rfl
@[simp] theorem State.setV_errcmd (s : State) (v : Chain) : (s.setV v).errcmd = s.errcmd := rfl
@[simp] theorem State.setV_cp (s : State) (v : Chain) : (s.setV v).cp = s.cp := rfl
@[simp] theorem State.setV_inputs (s : State) (v : Chain) : (s.setV v).inputs = s.inputs := rfl
@[simp] theorem State.setV_fill (s : State) (v : Chain) : (s.setV v).fill = s.fill := rfl

/-! `State.setBuf` -/

@[simp] theorem State.setBuf_v (s : State) (m : Memory) : (s.setBuf m).v = s.v := rfl
@[simp] theorem State.setBuf_buf (s : State) (m : Memory) : (s.setBuf m).buf = m := rfl
@[simp] theorem State.setBuf_bitcnt (s : State) (m : Memory) : (s.setBuf m).bitcnt = s.bitcnt := rfl
@[simp] theorem State.setBuf_phase (s : State) (m : Memory) : (s.setBuf m).phase = s.phase := rfl
@[simp] theorem State.setBuf_err (s : State) (m : Memory) : (s.setBuf m).err = s.err := rfl
@[simp] theorem State.setBuf_errcode (s : State) (m : Memory) : (s.setBuf m).errcode = s.errcode := rfl
@[simp] theorem State.setBuf_errcmd (s : State) (m : Memory) : (s.setBuf m).errcmd = s.errcmd := rfl
@[simp] theorem State.setBuf_cp (s : State) (m : Memory) : (s.setBuf m).cp = s.cp := rfl
@[simp] theorem State.setBuf_inputs (s : State) (m : Memory) : (s.setBuf m).inputs = s.inputs := rfl
@[simp] theorem State.setBuf_fill (s : State) (m : Memory) : (s.setBuf m).fill = s.fill := rfl

/-! `State.setBitcnt` -/

@[simp] theorem State.setBitcnt_v (s : State) (c : Count) : (s.setBitcnt c).v = s.v := rfl
@[simp] theorem State.setBitcnt_buf (s : State) (c : Count) : (s.setBitcnt c).buf = s.buf := rfl
@[simp] theorem State.setBitcnt_bitcnt (s : State) (c : Count) : (s.setBitcnt c).bitcnt = c := rfl
@[simp] theorem State.setBitcnt_phase (s : State) (c : Count) : (s.setBitcnt c).phase = s.phase := rfl
@[simp] theorem State.setBitcnt_err (s : State) (c : Count) : (s.setBitcnt c).err = s.err := rfl
@[simp] theorem State.setBitcnt_errcode (s : State) (c : Count) : (s.setBitcnt c).errcode = s.errcode := rfl
@[simp] theorem State.setBitcnt_errcmd (s : State) (c : Count) : (s.setBitcnt c).errcmd = s.errcmd := rfl
@[simp] theorem State.setBitcnt_cp (s : State) (c : Count) : (s.setBitcnt c).cp = s.cp := rfl
@[simp] theorem State.setBitcnt_inputs (s : State) (c : Count) : (s.setBitcnt c).inputs = s.inputs := rfl

/-! `State.setPhase` -/

@[simp] theorem State.setPhase_v (s : State) (p : Phase) : (s.setPhase p).v = s.v := rfl
@[simp] theorem State.setPhase_buf (s : State) (p : Phase) : (s.setPhase p).buf = s.buf := rfl
@[simp] theorem State.setPhase_bitcnt (s : State) (p : Phase) : (s.setPhase p).bitcnt = s.bitcnt := rfl
@[simp] theorem State.setPhase_phase (s : State) (p : Phase) : (s.setPhase p).phase = p := rfl
@[simp] theorem State.setPhase_err (s : State) (p : Phase) : (s.setPhase p).err = s.err := rfl
@[simp] theorem State.setPhase_errcode (s : State) (p : Phase) : (s.setPhase p).errcode = s.errcode := rfl
@[simp] theorem State.setPhase_errcmd (s : State) (p : Phase) : (s.setPhase p).errcmd = s.errcmd := rfl
@[simp] theorem State.setPhase_cp (s : State) (p : Phase) : (s.setPhase p).cp = s.cp := rfl
@[simp] theorem State.setPhase_inputs (s : State) (p : Phase) : (s.setPhase p).inputs = s.inputs := rfl
@[simp] theorem State.setPhase_fill (s : State) (p : Phase) : (s.setPhase p).fill = s.fill := rfl

/-! `State.recordFault` -/

@[simp] theorem State.recordFault_v (s : State) (code : ErrCode) (w : CmdWord) : (s.recordFault code w).v = s.v := rfl
@[simp] theorem State.recordFault_buf (s : State) (code : ErrCode) (w : CmdWord) : (s.recordFault code w).buf = s.buf := rfl
@[simp] theorem State.recordFault_bitcnt (s : State) (code : ErrCode) (w : CmdWord) : (s.recordFault code w).bitcnt = s.bitcnt := rfl
@[simp] theorem State.recordFault_phase (s : State) (code : ErrCode) (w : CmdWord) : (s.recordFault code w).phase = s.phase := rfl
@[simp] theorem State.recordFault_err (s : State) (code : ErrCode) (w : CmdWord) : (s.recordFault code w).err = true := rfl
@[simp] theorem State.recordFault_errcode (s : State) (code : ErrCode) (w : CmdWord) : (s.recordFault code w).errcode = code := rfl
@[simp] theorem State.recordFault_errcmd (s : State) (code : ErrCode) (w : CmdWord) : (s.recordFault code w).errcmd = w := rfl
@[simp] theorem State.recordFault_cp (s : State) (code : ErrCode) (w : CmdWord) : (s.recordFault code w).cp = s.cp := rfl
@[simp] theorem State.recordFault_inputs (s : State) (code : ErrCode) (w : CmdWord) : (s.recordFault code w).inputs = s.inputs := rfl
@[simp] theorem State.recordFault_fill (s : State) (code : ErrCode) (w : CmdWord) : (s.recordFault code w).fill = s.fill := rfl

/-! `State.accepted` -/

@[simp] theorem State.accepted_v (s : State) (rest : List HostInput) : (s.accepted rest).v = s.v := rfl
@[simp] theorem State.accepted_buf (s : State) (rest : List HostInput) : (s.accepted rest).buf = s.buf := rfl
@[simp] theorem State.accepted_bitcnt (s : State) (rest : List HostInput) : (s.accepted rest).bitcnt = s.bitcnt := rfl
@[simp] theorem State.accepted_phase (s : State) (rest : List HostInput) : (s.accepted rest).phase = s.phase := rfl
@[simp] theorem State.accepted_err (s : State) (rest : List HostInput) : (s.accepted rest).err = s.err := rfl
@[simp] theorem State.accepted_errcode (s : State) (rest : List HostInput) : (s.accepted rest).errcode = s.errcode := rfl
@[simp] theorem State.accepted_errcmd (s : State) (rest : List HostInput) : (s.accepted rest).errcmd = s.errcmd := rfl
@[simp] theorem State.accepted_cp (s : State) (rest : List HostInput) : (s.accepted rest).cp = s.cp + 1 := rfl
@[simp] theorem State.accepted_inputs (s : State) (rest : List HostInput) : (s.accepted rest).inputs = rest := rfl
@[simp] theorem State.accepted_fill (s : State) (rest : List HostInput) : (s.accepted rest).fill = s.fill := rfl

/-! `State.afterReset` -/

@[simp] theorem State.afterReset_v (s : State) (rest : List HostInput) : (s.afterReset rest).v = State.reset.v := rfl
@[simp] theorem State.afterReset_buf (s : State) (rest : List HostInput) : (s.afterReset rest).buf = State.reset.buf := rfl
@[simp] theorem State.afterReset_bitcnt (s : State) (rest : List HostInput) : (s.afterReset rest).bitcnt = State.reset.bitcnt := rfl
@[simp] theorem State.afterReset_phase (s : State) (rest : List HostInput) : (s.afterReset rest).phase = State.reset.phase := rfl
@[simp] theorem State.afterReset_err (s : State) (rest : List HostInput) : (s.afterReset rest).err = State.reset.err := rfl
@[simp] theorem State.afterReset_errcode (s : State) (rest : List HostInput) : (s.afterReset rest).errcode = State.reset.errcode := rfl
@[simp] theorem State.afterReset_errcmd (s : State) (rest : List HostInput) : (s.afterReset rest).errcmd = State.reset.errcmd := rfl
@[simp] theorem State.afterReset_cp (s : State) (rest : List HostInput) : (s.afterReset rest).cp = State.reset.cp := rfl
@[simp] theorem State.afterReset_inputs (s : State) (rest : List HostInput) : (s.afterReset rest).inputs = rest := rfl

/-! `State.compress` -/

@[simp] theorem State.compress_v (s : State) : s.compress.v = cf s.v s.buf.block := rfl
@[simp] theorem State.compress_buf (s : State) : s.compress.buf = s.buf := rfl
@[simp] theorem State.compress_bitcnt (s : State) : s.compress.bitcnt = s.bitcnt := rfl
@[simp] theorem State.compress_phase (s : State) : s.compress.phase = s.phase := rfl
@[simp] theorem State.compress_err (s : State) : s.compress.err = s.err := rfl
@[simp] theorem State.compress_errcode (s : State) : s.compress.errcode = s.errcode := rfl
@[simp] theorem State.compress_errcmd (s : State) : s.compress.errcmd = s.errcmd := rfl
@[simp] theorem State.compress_cp (s : State) : s.compress.cp = s.cp := rfl
@[simp] theorem State.compress_inputs (s : State) : s.compress.inputs = s.inputs := rfl
@[simp] theorem State.compress_fill (s : State) : s.compress.fill = s.fill := rfl

/-! `State.offer` -/

@[simp] theorem State.offer_v (s : State) (w : CmdWord) : (s.offer w).v = s.v := rfl
@[simp] theorem State.offer_buf (s : State) (w : CmdWord) : (s.offer w).buf = s.buf := rfl
@[simp] theorem State.offer_bitcnt (s : State) (w : CmdWord) : (s.offer w).bitcnt = s.bitcnt := rfl
@[simp] theorem State.offer_phase (s : State) (w : CmdWord) : (s.offer w).phase = s.phase := rfl
@[simp] theorem State.offer_err (s : State) (w : CmdWord) : (s.offer w).err = s.err := rfl
@[simp] theorem State.offer_errcode (s : State) (w : CmdWord) : (s.offer w).errcode = s.errcode := rfl
@[simp] theorem State.offer_errcmd (s : State) (w : CmdWord) : (s.offer w).errcmd = s.errcmd := rfl
@[simp] theorem State.offer_cp (s : State) (w : CmdWord) : (s.offer w).cp = s.cp := rfl
@[simp] theorem State.offer_inputs (s : State) (w : CmdWord) : (s.offer w).inputs = .command w :: s.inputs := rfl
@[simp] theorem State.offer_fill (s : State) (w : CmdWord) : (s.offer w).fill = s.fill := rfl

end Sys2Proof.Machine
end

