-- ==== Sys2Proof/Laws/Ops.lean ====
section
/-! SUPPORT. What each shared operation can do, said once: the two checks, the three meanings, and a step. -/

namespace Sys2Proof.Machine

open Sys2Proof

/-! ### The checks of R165 -/

/-- While ERR = 1 a command is discarded. -/
theorem unlessFaulted_of_err {s : State} (h : s.err = true) (run : Result) :
    unlessFaulted s run = .next s := by simp [unlessFaulted, h]

/-- While ERR = 0 the command goes on. -/
theorem unlessFaulted_of_clear {s : State} (h : s.err = false) (run : Result) :
    unlessFaulted s run = run := by simp [unlessFaulted, h]

theorem inReady_of_ready {s : State} (h : s.phase = .ready) (i : Instr) (run : Result) :
    inReady i s run = run := by simp [inReady, h]

theorem inReady_of_not_ready {s : State} (h : s.phase ≠ .ready) (i : Instr) (run : Result) :
    inReady i s run = .next (s.recordFault .badPhase (encode i)) := by simp [inReady, h, raise]

/-! ### The meanings, case by case -/

theorem exec_init_of_clear {s : State} (h : s.err = false) :
    exec .init s = .next (s.loadFresh Config.engine) := by
  simp only [exec, execInit, unlessFaulted_of_clear h]

theorem exec_absorb_of_ready {s : State} (h : s.err = false) (hp : s.phase = .ready) (b : Byte) :
    exec (.absorb b) s = .next (s.absorbByte b) := by
  simp only [exec, execAbsorb, unlessFaulted_of_clear h, inReady_of_ready hp]

theorem exec_final_of_ready {s : State} (h : s.err = false) (hp : s.phase = .ready) :
    exec .final s = .next s.finalize := by
  simp only [exec, execFinal, unlessFaulted_of_clear h, inReady_of_ready hp]

/-- What an accepted legal command does in a given state: discarded, BAD_PHASE, or its own effect. -/
inductive ExecCase (i : Instr) (s : State) : State → Prop where
  | discarded : s.err = true → ExecCase i s s
  | badPhase : s.err = false → i ≠ .init → s.phase ≠ .ready →
      ExecCase i s (s.recordFault .badPhase (encode i))
  | init : s.err = false → i = .init → ExecCase i s (s.loadFresh Config.engine)
  | absorb (b : Byte) : s.err = false → i = .absorb b → s.phase = .ready → ExecCase i s (s.absorbByte b)
  | final : s.err = false → i = .final → s.phase = .ready → ExecCase i s s.finalize

/-- Everything `exec` can answer: a next state, and which one. -/
theorem exec_cases (i : Instr) (s : State) : ∃ t, exec i s = .next t ∧ ExecCase i s t := by
  cases he : s.err with
  | true =>
    refine ⟨s, ?_, .discarded he⟩
    cases i <;> simp [exec, execInit, execAbsorb, execFinal, unlessFaulted_of_err he]
  | false =>
    cases i with
    | init => exact ⟨_, exec_init_of_clear he, .init he rfl⟩
    | absorb b =>
      by_cases hp : s.phase = .ready
      · exact ⟨_, exec_absorb_of_ready he hp b, .absorb b he rfl hp⟩
      · exact ⟨_, by simp only [exec, execAbsorb, unlessFaulted_of_clear he, inReady_of_not_ready hp],
          .badPhase he (by simp) hp⟩
    | final =>
      by_cases hp : s.phase = .ready
      · exact ⟨_, exec_final_of_ready he hp, .final he rfl hp⟩
      · exact ⟨_, by simp only [exec, execFinal, unlessFaulted_of_clear he, inReady_of_not_ready hp],
          .badPhase he (by simp) hp⟩

/-- What `exec` answered, from its answer. -/
theorem exec_inv {i : Instr} {s t : State} (h : exec i s = .next t) : ExecCase i s t := by
  obtain ⟨t', h', hc⟩ := exec_cases i s
  rw [h] at h'
  cases h'
  exact hc

/-! ### A step -/

/-- What one step does with the host's next input. -/
inductive StepCase (s : State) : State → Prop where
  | idle : s.inputs = [] → StepCase s s
  | reset (rest : List HostInput) : s.inputs = .reset :: rest → StepCase s (s.afterReset rest)
  | command (w : CmdWord) (rest : List HostInput) (i : Instr) (t : State) :
      s.inputs = .command w :: rest → decode w = .ok i → ExecCase i (s.accepted rest) t → StepCase s t
  | discarded (w : CmdWord) (rest : List HostInput) (e : DecodeError) :
      s.inputs = .command w :: rest → decode w = .error e → s.err = true → StepCase s (s.accepted rest)
  | illegal (w : CmdWord) (rest : List HostInput) (e : DecodeError) :
      s.inputs = .command w :: rest → decode w = .error e → s.err = false →
      StepCase s ((s.accepted rest).recordFault .illegalCmd w)

theorem step_idle {s : State} (h : s.inputs = []) : step s = .next s := by
  simp [step, takeInput, h]

theorem step_reset {s : State} {rest : List HostInput} (h : s.inputs = .reset :: rest) :
    step s = .next (s.afterReset rest) := by
  simp [step, takeInput, h]

theorem step_command {s : State} {w : CmdWord} {rest : List HostInput}
    (h : s.inputs = .command w :: rest) : step s = acceptCommand w (s.accepted rest) := by
  simp [step, takeInput, h]

/-- Everything a step can answer: a next state, and which one. -/
theorem step_cases (s : State) : ∃ t, step s = .next t ∧ StepCase s t := by
  cases hi : s.inputs with
  | nil => exact ⟨s, step_idle hi, .idle hi⟩
  | cons input rest =>
    cases input with
    | reset => exact ⟨_, step_reset hi, .reset rest hi⟩
    | command w =>
      rw [step_command hi, acceptCommand]
      cases hd : decode w with
      | ok i =>
        obtain ⟨t, ht, hc⟩ := exec_cases i (s.accepted rest)
        exact ⟨t, ht, .command w rest i t hi hd hc⟩
      | error e =>
        cases he : s.err with
        | true =>
          exact ⟨_, unlessFaulted_of_err (by simpa using he) _, .discarded w rest e hi hd he⟩
        | false =>
          exact ⟨_, unlessFaulted_of_clear (by simpa using he) _, .illegal w rest e hi hd he⟩

/-- What a step answered, from its answer. -/
theorem step_inv {s t : State} (h : step s = .next t) : StepCase s t := by
  obtain ⟨t', h', hc⟩ := step_cases s
  rw [h] at h'
  cases h'
  exact hc

end Sys2Proof.Machine
end

