-- ==== Sys2Proof/Laws/Commands.lean ====
section
/-! SUPPORT. What the bodies of the three commands write, field by field. -/

namespace Sys2Proof.Machine

open Sys2Proof

/-! `State.loadFresh` (R80) -/

@[simp] theorem State.loadFresh_v (s : State) (cfg : Config) : (s.loadFresh cfg).v = cfg.iv := rfl
@[simp] theorem State.loadFresh_bitcnt (s : State) (cfg : Config) : (s.loadFresh cfg).bitcnt = 0 := rfl
@[simp] theorem State.loadFresh_fill (s : State) (cfg : Config) : (s.loadFresh cfg).fill = 0 := by
  simp [State.fill, fillOf]
@[simp] theorem State.loadFresh_buf (s : State) (cfg : Config) :
    (s.loadFresh cfg).buf = s.buf.zeroFill 0 64 := rfl
@[simp] theorem State.loadFresh_phase (s : State) (cfg : Config) : (s.loadFresh cfg).phase = .ready := rfl
@[simp] theorem State.loadFresh_err (s : State) (cfg : Config) : (s.loadFresh cfg).err = s.err := rfl
@[simp] theorem State.loadFresh_errcode (s : State) (cfg : Config) :
    (s.loadFresh cfg).errcode = s.errcode := rfl
@[simp] theorem State.loadFresh_errcmd (s : State) (cfg : Config) :
    (s.loadFresh cfg).errcmd = s.errcmd := rfl
@[simp] theorem State.loadFresh_cp (s : State) (cfg : Config) : (s.loadFresh cfg).cp = s.cp := rfl
@[simp] theorem State.loadFresh_inputs (s : State) (cfg : Config) :
    (s.loadFresh cfg).inputs = s.inputs := rfl

/-! `State.absorbByte` (R120) -/

@[simp] theorem State.absorbByte_v (s : State) (b : Byte) : (s.absorbByte b).v =
    if s.fill = 63 then cf s.v (s.buf.write s.fill b).block else s.v := by
  simp only [State.absorbByte]; split <;> rfl
@[simp] theorem State.absorbByte_buf (s : State) (b : Byte) :
    (s.absorbByte b).buf = s.buf.write s.fill b := by
  simp only [State.absorbByte]; split <;> rfl
@[simp] theorem State.absorbByte_bitcnt (s : State) (b : Byte) :
    (s.absorbByte b).bitcnt = s.bitcnt + 8 := by
  simp only [State.absorbByte]; split <;> rfl
@[simp] theorem State.absorbByte_phase (s : State) (b : Byte) : (s.absorbByte b).phase = s.phase := by
  simp only [State.absorbByte]; split <;> rfl
@[simp] theorem State.absorbByte_err (s : State) (b : Byte) : (s.absorbByte b).err = s.err := by
  simp only [State.absorbByte]; split <;> rfl
@[simp] theorem State.absorbByte_errcode (s : State) (b : Byte) :
    (s.absorbByte b).errcode = s.errcode := by
  simp only [State.absorbByte]; split <;> rfl
@[simp] theorem State.absorbByte_errcmd (s : State) (b : Byte) :
    (s.absorbByte b).errcmd = s.errcmd := by
  simp only [State.absorbByte]; split <;> rfl
@[simp] theorem State.absorbByte_cp (s : State) (b : Byte) : (s.absorbByte b).cp = s.cp := by
  simp only [State.absorbByte]; split <;> rfl
@[simp] theorem State.absorbByte_inputs (s : State) (b : Byte) : (s.absorbByte b).inputs = s.inputs := by
  simp only [State.absorbByte]; split <;> rfl

/-! The steps of `State.finalize` (R132 to R136) -/

@[simp] theorem State.padTerminator_v (s : State) (k : Offset) : (s.padTerminator k).v = s.v := rfl
@[simp] theorem State.padTerminator_buf (s : State) (k : Offset) :
    (s.padTerminator k).buf = s.buf.write k 0x80#8 := rfl
@[simp] theorem State.spillBlock_v (s : State) (idx : Nat) :
    (s.spillBlock idx).v = cf s.v (s.buf.zeroFill idx 64).block := rfl
@[simp] theorem State.spillBlock_buf (s : State) (idx : Nat) :
    (s.spillBlock idx).buf = s.buf.zeroFill idx 64 := rfl
@[simp] theorem State.lengthBlock_buf (s : State) (idx : Nat) (len : Count) :
    (s.lengthBlock idx len).buf = (s.buf.zeroFill idx 56).writeBE 56 8 len (by decide) := rfl
@[simp] theorem State.lengthBlock_v (s : State) (idx : Nat) (len : Count) :
    (s.lengthBlock idx len).v = cf s.v (s.lengthBlock idx len).buf.block := rfl

/-- FINAL writes V, BUF and PHASE, and nothing else (R130, R138). -/
theorem State.finalize_writes (s : State) :
    s.finalize = { s with v := s.finalize.v, buf := s.finalize.buf, phase := .finalized } := by
  simp only [State.finalize]; split <;> rfl

@[simp] theorem State.finalize_bitcnt (s : State) : s.finalize.bitcnt = s.bitcnt := by
  rw [State.finalize_writes]
@[simp] theorem State.finalize_phase (s : State) : s.finalize.phase = .finalized := by
  rw [State.finalize_writes]
@[simp] theorem State.finalize_err (s : State) : s.finalize.err = s.err := by
  rw [State.finalize_writes]
@[simp] theorem State.finalize_errcode (s : State) : s.finalize.errcode = s.errcode := by
  rw [State.finalize_writes]
@[simp] theorem State.finalize_errcmd (s : State) : s.finalize.errcmd = s.errcmd := by
  rw [State.finalize_writes]
@[simp] theorem State.finalize_cp (s : State) : s.finalize.cp = s.cp := by
  rw [State.finalize_writes]
@[simp] theorem State.finalize_inputs (s : State) : s.finalize.inputs = s.inputs := by
  rw [State.finalize_writes]

/-! The canonical form of the buffer is kept by each -/

theorem State.loadFresh_wf {s : State} (h : s.buf.wf = true) (cfg : Config) :
    (s.loadFresh cfg).buf.wf = true := Memory.wf_zeroFill h 0 64

theorem State.absorbByte_wf {s : State} (h : s.buf.wf = true) (b : Byte) :
    (s.absorbByte b).buf.wf = true := by
  rw [State.absorbByte_buf]; exact Memory.wf_write h _ b

theorem State.finalize_wf {s : State} (h : s.buf.wf = true) : s.finalize.buf.wf = true := by
  have h1 := Memory.wf_write h s.fill 0x80#8
  simp only [State.finalize]
  split
  · exact Memory.wf_writeBE (Memory.wf_zeroFill (Memory.wf_zeroFill h1 _ _) _ _) _ _ _ _
  · exact Memory.wf_writeBE (Memory.wf_zeroFill h1 _ _) _ _ _ _

/-- The reset state's buffer has the canonical form. -/
theorem State.reset_wf : State.reset.buf.wf = true := by decide

end Sys2Proof.Machine
end

