-- ==== Sys2Proof/Laws/Compress.lean ====
section
/-! SUPPORT. The small lemmas of the compression function: what `cf` is, and reads of a growing schedule. -/

namespace Sys2Proof.Machine

open Sys2Proof

/-- What `cf` is; it is irreducible, so a proof about its rounds starts here. -/
theorem cf_eq (v : Chain) (b : Block) :
    cf v b = combine v (mix (schedule b) (derivedWords (schedule b)) (loadVars v)) := by
  unfold cf; rfl

@[simp] theorem length_parse (b : Block) : (parse b).length = 16 := by simp [parse]

/-- A parsed word is the block's word (R98). -/
theorem scheduleWord_parse (b : Block) (i : Fin 16) : scheduleWord (parse b) i.val = blockWord b i := by
  rw [scheduleWord, List.getD_eq_getElem?_getD, parse, List.getElem?_ofFn]
  simp

/-- Appending a word keeps the words before it. -/
theorem scheduleWord_append_of_lt {ws : List Word} {i : Nat} (h : i < ws.length) (w : Word) :
    scheduleWord (ws ++ [w]) i = scheduleWord ws i := by
  simp [scheduleWord, List.getD_eq_getElem?_getD, List.getElem?_append, h]

/-- The appended word stands at the end. -/
@[simp] theorem scheduleWord_append_length (ws : List Word) (w : Word) :
    scheduleWord (ws ++ [w]) ws.length = w := by
  simp [scheduleWord, List.getD_eq_getElem?_getD]

end Sys2Proof.Machine
end

