-- ==== Sys2Proof/Laws/PerInstr.lean ====
section
/-! SUPPORT. One lemma per constructor of `Instr`: its word is one of the legal ones of R61 to R63. -/

namespace Sys2Proof.Laws.LegalWord

open Sys2Proof

/-- The word of the command passes the checks on raw words, and has the opcode that R61 gives the command. -/
def Statement (i : Instr) : Prop :=
  i.wellFormed = true ∧ (RawCmd.ofWord (encode i)).wellFormed = true ∧
    (RawCmd.ofWord (encode i)).op = match i with
      | .init => 0x01#8
      | .absorb _ => 0x02#8
      | .final => 0x03#8

theorem init : Statement .init := by unfold Statement; decide

theorem absorb (b : Byte) : Statement (.absorb b) := by
  unfold Statement
  revert b
  decide

theorem final : Statement .final := by unfold Statement; decide

end Sys2Proof.Laws.LegalWord
end

