-- ==== Sys2Proof/Tests/Slice0.lean ====
section
/-! SUPPORT. Checks of the model against values written out from the spec (each names its source), the
well-formedness smoke test, and a witness for the hypotheses of each statement. -/

namespace Sys2Proof.Tests

open Sys2Proof Sys2Proof.Machine

/-! ### Helpers -/

/-- Whether a result is a next state with the given property. -/
def nextHas (r : Result) (p : State → Bool) : Bool :=
  match r with
  | .next t => p t
  | .fault _ => false
  | .refused _ => false

/-- A READY state in which `n` zero bytes have been absorbed, all within the first block. -/
def readyAt (n : Nat) : State :=
  { State.reset with
    v := defaultIV, buf := Memory.zeroFill [] 0 64, bitcnt := BitVec.ofNat 64 (8 * n), phase := .ready }

/-- A READY state after `n` bytes 0x61, `n` at most 63. -/
def readyWithA (n : Nat) : State :=
  { readyAt n with
    buf := (List.finRange 64).foldl (fun m k => if k.val < n then Memory.write m k 0x61#8 else m)
      (Memory.zeroFill [] 0 64) }

/-- A state with a recorded fault (96 section 6.5, first fault row: the word 0x0000 from reset). -/
def faulted : State :=
  { State.reset with err := true, errcode := .illegalCmd, errcmd := 0x0000#16 }

/-- The block of 95 section 2. -/
def abcBlock : Block :=
  Vector.ofFn fun k : Fin 64 =>
    if k.val = 0 then 0x61#8 else if k.val = 1 then 0x62#8 else if k.val = 2 then 0x63#8
    else if k.val = 3 then 0x80#8 else if k.val = 63 then 0x18#8 else 0x00#8

/-! ### Well-formedness smoke test: a term each check refuses -/

theorem test_wf_refuses_opcode_zero : (RawCmd.mk 0x00 0x00).opDefined = false := by decide
theorem test_wf_refuses_opcode_four : (RawCmd.mk 0x04 0x62).wellFormed = false := by decide
theorem test_wf_refuses_init_operand : (RawCmd.mk 0x01 0x01).immAllowed = false := by decide
theorem test_wf_refuses_final_operand : (RawCmd.mk 0x03 0xff).wellFormed = false := by decide
theorem test_wf_accepts_absorb_operand : (RawCmd.mk 0x02 0xff).wellFormed = true := by decide

/-! ### Decoding, the words bit by bit from R60 and R61 -/

theorem test_decode_init : decode 0b00000001_00000000#16 = .ok .init := by decide
theorem test_decode_absorb : decode 0b00000010_01100001#16 = .ok (.absorb 0x61) := by decide
theorem test_decode_final : decode 0b00000011_00000000#16 = .ok .final := by decide
theorem test_decode_illegal : decode 0b00000011_00000101#16 = .error (.operandNotZero 0x03 0x05) := by
  decide
theorem test_table_word : decodeTableWord 16 0x02ff = some (.absorb 0xff) := by decide
theorem test_encode_absorb : encode (.absorb 0x80) = 0x0280#16 := by decide

/-! ### The compression function -/

/-- 95 section 3.1. -/
theorem test_rotl : rotl 0x12345678 0 = 0x12345678 ∧ rotl 0x12345678 7 = 0x1a2b3c09 ∧
    rotl 0x80000000 9 = 0x00000100 ∧ rotl 0x00000001 31 = 0x80000000 := by decide

/-- R93, examples. -/
theorem test_p1 : p1 0x00000001 = 0x00808001 ∧ p1 0x12345678 = 0x05014549 ∧
    p1 0x61626380 = 0x9092e200 := by decide

/-- R96 and R97, examples, and the edges j = 15, 16. -/
theorem test_ff_gg : ff 0x12345678 0x9abcdef0 0x0f1e2d3c 15 = 0x8796a5b4 ∧
    ff 0x12345678 0x9abcdef0 0x0f1e2d3c 16 = 0x1a3c5e78 ∧
    gg 0x12345678 0x9abcdef0 0x0f1e2d3c 16 = 0x1f3e7f74 := by decide

/-- R104: the edge case j = 32, and j = 33. -/
theorem test_rotated_constant : rotatedConstant 32 = 0x7a879d8a ∧ rotatedConstant 33 = 0xf50f3b14 ∧
    rotatedConstant 63 = 0x3d43cec5 := by decide

/-- 95 section 3.3, last row: where each old value goes. -/
theorem test_round : round ⟨1, 2, 3, 4, 5, 6, 7, 8⟩ 16 0x00000009 0x0000000a =
    ⟨0xc545565f, 1, 0x400, 3, 0xc3020765, 5, 0x300000, 7⟩ := by decide

/-- R99 and R100, examples (the block of R98). -/
theorem test_schedule : scheduleWord (schedule abcBlock) 0 = 0x61626380 ∧
    scheduleWord (schedule abcBlock) 16 = 0x9092e200 ∧
    scheduleWord (schedule abcBlock) 67 = 0xb99c0545 ∧
    scheduleWord (derivedWords (schedule abcBlock)) 63 = 0x49e260d5 := by decide +kernel

/-- R107, first example. -/
theorem test_cf_abc : cf defaultIV abcBlock =
    ⟨0x66c7f0f4, 0x62eeedd9, 0xd1f2d46b, 0xdc10e4e2,
     0x4167c487, 0x5cf2f7a2, 0x297da02b, 0x8f4ba8e0⟩ := by decide +kernel

/-- R107, third example. -/
theorem test_cf_zero : cf ⟨0, 0, 0, 0, 0, 0, 0, 0⟩ (Vector.replicate 64 0) =
    ⟨0x2762550f, 0x18134933, 0xba35ce4e, 0x0a757e65,
     0x8c0e7205, 0xfe9e4ff6, 0x5ac5c88b, 0xa3649ac2⟩ := by decide +kernel

/-! ### The three commands -/

/-- R80, example: INIT from reset. -/
theorem test_init_from_reset : nextHas (exec .init State.reset) (fun t =>
    decide (t.v = defaultIV) && decide (t.bitcnt = 0) && decide (t.buf.read 63 = some 0x00#8) &&
    decide (t.status = 0x01#8)) = true := by decide +kernel

/-- 60 R167: INIT after a fault is discarded. -/
theorem test_init_discarded : nextHas (exec .init faulted) (fun t =>
    decide (t.phase = .uninit) && decide (t.buf.read 0 = none) && decide (t.status = 0x0C#8)) = true := by
  decide +kernel

/-- R120, example, with a byte whose place shows: ABSORB 0x61 after INIT. -/
theorem test_absorb_first_byte : nextHas (exec (.absorb 0x61) (readyAt 0)) (fun t =>
    decide (t.buf.read 0 = some 0x61#8) && decide (t.buf.read 1 = some 0x00#8) &&
    decide (t.bitcnt = 8) && decide (t.fill = 1) && decide (t.v = defaultIV)) = true := by decide +kernel

/-- 96 section 6.3, the row given directly: the byte at offset 63, and BITCNT wraps. -/
theorem test_absorb_wraps : nextHas
    (exec (.absorb 0x61) { readyAt 0 with bitcnt := 0xfffffffffffffff8#64 }) (fun t =>
      decide (t.buf.read 63 = some 0x61#8) && decide (t.bitcnt = 0) && decide (t.err = false) &&
      decide (t.v = ⟨0x0a902ed7, 0x80d2106f, 0xa1b1cee8, 0xbfa043f1,
                     0xf95c95db, 0xfc2b2acf, 0xcbb3e212, 0x0990598c⟩)) = true := by decide +kernel

/-- 96 section 6.4, fill 55: one compression, the last length that fits. -/
theorem test_final_fill_55 : nextHas (exec .final (readyWithA 55)) (fun t =>
    decide (t.buf.read 55 = some 0x80#8) && decide (t.buf.read 62 = some 0x01#8) &&
    decide (t.buf.read 63 = some 0xb8#8) && decide (t.bitcnt = 440) &&
    decide (t.v = ⟨0x288337ee, 0xf51eec62, 0xe7544d72, 0x70424c8d,
                   0xbe656254, 0xc9985287, 0x0a73b245, 0x3a6a7fb1⟩)) = true := by decide +kernel

/-- 96 section 6.4, fill 63: two compressions, the terminator at the last offset. -/
theorem test_final_fill_63 : nextHas (exec .final (readyWithA 63)) (fun t =>
    decide (t.buf.read 0 = some 0x00#8) && decide (t.buf.read 63 = some 0xf8#8) &&
    decide (t.phase = .finalized) &&
    decide (t.v = ⟨0x58730854, 0x3551881e, 0xbd70d27a, 0xd358ff5d,
                   0xcdf24ac5, 0x4822e2f7, 0xb7c3edce, 0x0985d21b⟩)) = true := by decide +kernel

/-! ### Faults, STATUS, and the step -/

/-- R164, example: ABSORB 0x61 from reset, taken through the step as the first command. -/
theorem test_step_bad_phase : nextHas (step (State.reset.withFetchWord 16 0x0261)) (fun t =>
    decide (t.errcode = .badPhase) && decide (t.errcmd = 0x0261#16) && decide (t.status = 0x14#8) &&
    decide (t.cp = 1) && decide (t.inputs = [])) = true := by decide +kernel

/-- R165: the word 0x0305 in UNINIT raises ILLEGAL_CMD, not BAD_PHASE. -/
theorem test_step_illegal_before_phase : nextHas (step (State.reset.withFetchWord 16 0x0305)) (fun t =>
    decide (t.errcode = .illegalCmd) && decide (t.errcmd = 0x0305#16) &&
    decide (t.status = 0x0C#8)) = true := by decide +kernel

/-- The table's words run as the first command after reset. -/
theorem test_step_runs_init : nextHas (step (State.reset.withFetchWord 16 0x0100))
    (fun t => decide (t.phase = .ready) && decide (t.cp = 1)) = true := by decide +kernel
theorem test_step_runs_final : nextHas (step (State.reset.withFetchWord 16 0x0300))
    (fun t => decide (t.errcmd = 0x0300#16) && decide (t.status = 0x14#8)) = true := by decide +kernel

/-- R180: a reset input clears a recorded fault. -/
theorem test_step_reset : nextHas (step { faulted with inputs := [.reset, .command 0x0100#16], cp := 7 })
    (fun t => decide (t.err = false) && decide (t.cp = 0) &&
      decide (t.inputs = [.command 0x0100#16])) = true := by decide +kernel

/-- 96 section 6.4, serialisation: D[0..3] and D[28..31] of the digest of "abc", on the port. -/
theorem test_digest_bytes : nextHas (.next { readyAt 3 with
      phase := .finalized, v := ⟨0x66c7f0f4, 0x62eeedd9, 0xd1f2d46b, 0xdc10e4e2,
                                 0x4167c487, 0x5cf2f7a2, 0x297da02b, 0x8f4ba8e0⟩ }) (fun t =>
    match t.digest with
    | none => false
    | some d => decide (digestByte d 0 = 0x66#8) && decide (digestByte d 3 = 0xf4#8) &&
        decide (digestByte d 28 = 0x8f#8) && decide (digestByte d 31 = 0xe0#8)) = true := by
  decide +kernel

/-- R142 on the empty message: 0x80, 55 zeros, eight zero bytes. -/
theorem test_pad_empty : pad [] = 0x80#8 :: List.replicate 63 0x00#8 := by decide +kernel

/-- R69, example: `HASH "abc"`. -/
theorem test_assemble_hash : assemble (.hashText ['a', 'b', 'c']) =
    some [0x0100#16, 0x0261#16, 0x0262#16, 0x0263#16, 0x0300#16] := by decide +kernel

/-- R67: one line of each form of the table, and a character that is not ASCII (log 14). -/
theorem test_assemble_lines : assembleAll [.init, .absorb 0x62, .absorbChar 'a', .word 0x0305, .final] =
      some [0x0100#16, 0x0262#16, 0x0261#16, 0x0305#16, 0x0300#16] ∧
    assembleAll [.init, .updateText ['a', Char.ofNat 233]] = none := by decide +kernel

/-! ### Witnesses: concrete states and operands that meet a statement's hypotheses -/

theorem witness_step_runs :
    (State.reset.offer 0x0261#16).inputs = .command 0x0261#16 :: [] ∧
    decode 0x0261#16 = .ok (.absorb 0x61) := ⟨rfl, by decide⟩

theorem witness_reset_input : { faulted with inputs := [.reset] }.inputs = .reset :: [] := rfl
theorem witness_idle : State.reset.inputs = [] := rfl

/-- INIT: one witness per phase. -/
theorem witness_init : State.reset.err = false ∧ (readyAt 5).err = false ∧
    { readyAt 5 with phase := .finalized }.err = false := ⟨rfl, rfl, rfl⟩

theorem witness_init_pair :
    (readyAt 5).err = false ∧ State.reset.err = false ∧ (readyAt 5).buf.wf = true ∧
    State.reset.buf.wf = true ∧ (readyAt 5).errcode = State.reset.errcode ∧
    (readyAt 5).errcmd = State.reset.errcmd ∧ (readyAt 5).cp = State.reset.cp ∧
    (readyAt 5).inputs = State.reset.inputs :=
  ⟨rfl, rfl, Memory.wf_zeroFill rfl 0 64, rfl, rfl, rfl, rfl, rfl⟩

/-- ABSORB: an offset that does not compress, the last of those, and the one that does. -/
theorem witness_absorb : ∀ n ∈ [0, 62, 63], (readyAt n).err = false ∧ (readyAt n).phase = .ready ∧
    (readyAt n).bitcnt.toNat / 8 % 64 = n := by decide +kernel

/-- Fill offset: a multiple of 8 at offset 63, just below the wrap. -/
theorem witness_fill : (0xfffffffffffffff8#64).toNat % 8 = 0 ∧ fillOf 0xfffffffffffffff8#64 = 63 := by
  decide +kernel

/-- FINAL: both sides of the branch and both ends. -/
theorem witness_final : ∀ n ∈ [0, 55, 56, 63], (readyAt n).err = false ∧ (readyAt n).phase = .ready ∧
    (readyAt n).fill.val = n := by decide +kernel

/-- BAD_PHASE: UNINIT and FINALIZED. INIT from a state that has a next state. -/
theorem witness_misuse : State.reset.err = false ∧ State.reset.phase ≠ .ready ∧
    { readyAt 3 with phase := .finalized }.err = false ∧
    { readyAt 3 with phase := .finalized }.phase ≠ .ready ∧
    exec .init faulted = .next faulted := ⟨rfl, by decide, rfl, by decide, rfl⟩

/-- ILLEGAL_CMD: a reserved opcode and a non-zero operand; and a legal command that answers with an
ILLEGAL_CMD on record, since one was. -/
theorem witness_illegal : State.reset.err = false ∧
    0x0400#16 ≠ 0x0100#16 ∧ (∀ b : Byte, (0x0400 : CmdWord) ≠ 0x02#8 ++ b) ∧ 0x0400#16 ≠ 0x0300#16 ∧
    0x0301#16 ≠ 0x0100#16 ∧ (∀ b : Byte, (0x0301 : CmdWord) ≠ 0x02#8 ++ b) ∧ 0x0301#16 ≠ 0x0300#16 ∧
    exec .final faulted = .next faulted ∧ faulted.errcode = .illegalCmd :=
  ⟨rfl, by decide, by decide, by decide, by decide, by decide, by decide, rfl, rfl⟩

/-- Fault entry: both causes. -/
theorem witness_fault_entry :
    (∃ t, acceptCommand 0x0400#16 State.reset = .next t ∧ t.err = true) ∧
    (∃ t, acceptCommand 0x0261#16 State.reset = .next t ∧ t.err = true) ∧ State.reset.err = false :=
  ⟨⟨_, rfl, rfl⟩, ⟨_, rfl, rfl⟩, rfl⟩

/-- Discarding: a faulted state. -/
theorem witness_discard : faulted.err = true := rfl

/-- A stream that is offered, with more inputs behind it. -/
theorem witness_offered_stream :
    { State.reset with inputs := asInputs [0x0100#16, 0x0261#16] ++ [HostInput.reset] }.inputs =
      asInputs [0x0100#16, 0x0261#16] ++ [HostInput.reset] := rfl

/-- The fault record under a reset, under a command, and with no input. -/
theorem witness_fault_record :
    (∃ t, step { faulted with inputs := [.reset] } = .next t) ∧
    (∃ t, step { faulted with inputs := [.command 0x0100#16] } = .next t) ∧
    (∃ t, step faulted = .next t) ∧ faulted.err = true :=
  ⟨⟨_, rfl⟩, ⟨_, rfl⟩, ⟨_, rfl⟩, rfl⟩

/-- The invariant: a state in READY that has it, with a next state. -/
theorem witness_inv : (readyAt 5).Inv ∧ ∃ t, step (readyAt 5) = .next t := by
  refine ⟨⟨Memory.wf_zeroFill rfl 0 64, fun _ k => ?_, fun _ => by decide, ?_, fun _ => rfl, ?_, ?_⟩, _, rfl⟩
  · simp [readyAt, Memory.read_zeroFill]
  · exact ⟨fun _ => rfl, fun _ => rfl⟩
  · exact nofun
  · exact nofun

/-- The digest port: a state that shows a value, and V[0] of the example. -/
theorem witness_digest : { readyAt 3 with phase := .finalized }.digest =
    some (chainBits defaultIV) ∧
    (Chain.mk 0x66c7f0f4 0 0 0 0 0 0 0).v0 = 0x66c7f0f4#32 := ⟨rfl, rfl⟩

/-- Registers that change: INIT from reset writes PHASE and BUF, ABSORB the counter. -/
theorem witness_writers : nextHas (step (State.reset.offer 0x0100#16)) (fun t =>
      decide (t.phase ≠ State.reset.phase) && decide (t.buf.read 0 ≠ none)) = true ∧
    nextHas (step ((readyAt 63).offer 0x0261#16)) (fun t =>
      decide (t.bitcnt ≠ (readyAt 63).bitcnt) && decide (t.v ≠ (readyAt 63).v) &&
      decide (t.buf.read 63 ≠ some 0x00#8)) = true := by decide +kernel

/-- A step on an offered word that has a next state. -/
theorem witness_command_step : (State.reset.offer 0x0300#16).inputs = .command 0x0300#16 :: [] ∧
    ∃ t, step (State.reset.offer 0x0300#16) = .next t := ⟨rfl, _, rfl⟩

/-- A stream that respects the phases, with an abandoned message and a second hash in it. -/
theorem witness_stream : State.reset.err = false ∧
    respects State.reset.phase [.init, .absorb 0x78, .init, .absorb 0x61, .final, .init, .final] = true := by
  decide

/-- Padding: a message whose length needs zeros, and a zero count below the least. -/
theorem witness_pad : 0 < padZeros [0x61#8].length := by decide

/-- The round functions: an index on each side of 16. -/
theorem witness_round_index : (15 : Nat) < 16 ∧ 16 ≤ (16 : Nat) := by decide

/-- Rotated constants: both ends of 16..31. -/
theorem witness_constant_index : 16 ≤ (16 : Fin 64).val ∧ (31 : Fin 64).val ≤ 31 := by decide

/-- The schedule and the rounds of COMPRESS: both ends of 16..67 and of 0..63. -/
theorem witness_schedule_index : 16 ≤ (16 : Nat) ∧ (67 : Nat) < 68 ∧ (67 : Nat) ≤ 67 ∧ (63 : Nat) < 64 ∧
    (0 : Nat) ≤ 63 ∧ (63 : Nat) ≤ 63 := by decide

/-- Assembler text: the last ASCII character, the first one outside, and a text of each kind. -/
theorem witness_ascii : (Char.ofNat 127).toNat < 128 ∧ 128 ≤ (Char.ofNat 128).toNat ∧
    (∀ c ∈ ['a', 'b', 'c'], c.toNat < 128) ∧ ∃ c ∈ ['a', Char.ofNat 128], 128 ≤ c.toNat :=
  ⟨by decide, by decide, by simp, Char.ofNat 128, by simp, by decide⟩

/-- UPDATE: two bytes from fill 63, so that one block is compressed. -/
theorem witness_update :
    { readyAt 63 with inputs := asInputs (updateWords [0x61#8, 0x62#8]) ++ [] }.err = false ∧
    { readyAt 63 with inputs := asInputs (updateWords [0x61#8, 0x62#8]) ++ [] }.phase = .ready ∧
    { readyAt 63 with inputs := asInputs (updateWords [0x61#8, 0x62#8]) ++ [] }.inputs =
      asInputs (updateWords [0x61#8, 0x62#8]) ++ [] := ⟨rfl, rfl, rfl⟩

/-- HASH: "abc" in three chunks, one empty (program text A of 96 P4), from reset; the words; and a prefix. -/
theorem witness_hash :
    State.reset.err = false ∧
    ([[0x61#8], [], [0x62#8, 0x63#8]] : List (List Byte)).flatten.length < 2 ^ 61 ∧
    0x0100#16 :: (([[0x61#8], [], [0x62#8, 0x63#8]] : List (List Byte)).map updateWords).flatten ++
      [0x0300#16] = [0x0100#16, 0x0261#16, 0x0262#16, 0x0263#16, 0x0300#16] ∧
    3 ≤ ([[0x61#8], [], [0x62#8, 0x63#8]] : List (List Byte)).flatten.length := by
  refine ⟨rfl, by simp, by decide, by simp⟩

/-- Two states that differ only in what is not observable: different V, BUF and BITCNT in UNINIT; different
stale bytes in READY. -/
theorem witness_same_view :
    SameView State.reset { readyAt 5 with phase := .uninit } ∧
    SameView (readyAt 5) { readyAt 5 with buf := (readyAt 5).buf.write 5 0xff#8 } ∧
    ∃ t, step (readyAt 5) = .next t := by
  refine ⟨⟨rfl, rfl, rfl, rfl, rfl, nofun, nofun⟩,
    ⟨rfl, rfl, rfl, rfl, rfl, fun _ => ⟨rfl, rfl, fun k hk => ?_⟩, nofun⟩, _, rfl⟩
  have hk5 : k.val < 5 := hk
  have h5 : k.val ≠ (5 : Offset).val := by
    have : (5 : Offset).val = 5 := rfl
    omega
  simp only [Memory.byte, Memory.read_write, if_neg h5]

/-- Two states with ERR = 0, apart in everything hidden, about to run INIT. -/
theorem witness_runs_from_init :
    (State.reset.offer 0x0100#16).err = false ∧ ((readyAt 5).offer 0x0100#16).err = false ∧
    (State.reset.offer 0x0100#16).errcode = ((readyAt 5).offer 0x0100#16).errcode ∧
    (State.reset.offer 0x0100#16).errcmd = ((readyAt 5).offer 0x0100#16).errcmd ∧
    (State.reset.offer 0x0100#16).inputs = .command 0x0100#16 :: [] ∧
    ((readyAt 5).offer 0x0100#16).inputs = .command 0x0100#16 :: [] ∧
    (∃ s', steps 1 (State.reset.offer 0x0100#16) = .next s') ∧
    ∃ t', steps 1 ((readyAt 5).offer 0x0100#16) = .next t' :=
  ⟨rfl, rfl, rfl, rfl, rfl, rfl, ⟨_, rfl⟩, ⟨_, rfl⟩⟩

end Sys2Proof.Tests
end

/-! ## The engine's state, step by step: SUPPORT for the statements of 10_state -/

namespace Sys2Proof.Machine

open Sys2Proof

/-! ### The decoder against the encoder (R61, R65) -/

/-- The word of ABSORB carries the byte in its low half (R60, R61). -/
theorem encode_absorb (b : Byte) : encode (.absorb b) = 0x02#8 ++ b := by
  revert b; decide

theorem decode_encode (i : Instr) : decode (encode i) = .ok i := by
  cases i with
  | init => decide
  | absorb b => revert b; decide
  | final => decide

theorem eq_encode_of_decode {w : CmdWord} {i : Instr} (h : decode w = .ok i) : w = encode i := by
  unfold decode at h
  split at h
  · next hw => cases h; exact hw
  split at h
  · next hop =>
    cases h
    have hsplit : w.extractLsb' 8 8 ++ w.extractLsb' 0 8 = w := by
      rw [BitVec.extractLsb'_append_extractLsb'_eq_extractLsb' (by rfl)]
      exact BitVec.extractLsb'_eq_self
    have hhigh : w.extractLsb' 8 8 = 0x02#8 := hop
    rw [hhigh] at hsplit
    exact hsplit.symm.trans (encode_absorb _).symm
  split at h
  · next hw => cases h; exact hw
  · cases h

/-! ### The refusing branches of `exec`, and `acceptCommand` by what the word decodes to (R165) -/

theorem exec_of_err {s : State} (he : s.err = true) (i : Instr) : exec i s = .next s := by
  cases i <;> exact unlessFaulted_of_err he _

theorem exec_of_not_ready {i : Instr} {s : State} (he : s.err = false) (hi : i ≠ .init)
    (hp : s.phase ≠ .ready) : exec i s = .next (s.recordFault .badPhase (encode i)) := by
  cases i with
  | init => exact absurd rfl hi
  | absorb b => exact (unlessFaulted_of_clear he _).trans (inReady_of_not_ready hp _ _)
  | final => exact (unlessFaulted_of_clear he _).trans (inReady_of_not_ready hp _ _)

theorem acceptCommand_of_ok {w : CmdWord} {i : Instr} (hd : decode w = .ok i) (s : State) :
    acceptCommand w s = exec i s := by
  simp only [acceptCommand, hd]

theorem acceptCommand_of_err {w : CmdWord} {e : DecodeError} {s : State} (hd : decode w = .error e)
    (he : s.err = true) : acceptCommand w s = .next s := by
  simp only [acceptCommand, hd, illegalCommand, unlessFaulted_of_err he]

theorem acceptCommand_of_illegal {w : CmdWord} {e : DecodeError} {s : State}
    (hd : decode w = .error e) (he : s.err = false) :
    acceptCommand w s = .next (s.recordFault .illegalCmd w) := by
  simp only [acceptCommand, hd, illegalCommand, unlessFaulted_of_clear he, raise]

/-! ### The fill offset and BITCNT (R23, R122) -/

theorem fillOf_val (c : Count) : (fillOf c).val = c.toNat / 8 % 64 := rfl

theorem toNat_add_eight (c : Count) : (c + 8).toNat = (c.toNat + 8) % 2 ^ 64 := by
  simp [BitVec.toNat_add]

/-- The next fill offset, the wrap of BITCNT included: 2^64 is a multiple of 512. -/
theorem fillOf_add_eight_val (c : Count) : (fillOf (c + 8)).val = ((fillOf c).val + 1) % 64 := by
  rw [fillOf_val, fillOf_val, toNat_add_eight]
  omega

@[simp] theorem State.absorbByte_fill_val (s : State) (b : Byte) :
    (s.absorbByte b).fill.val = (s.fill.val + 1) % 64 := by
  rw [State.fill, State.absorbByte_bitcnt, fillOf_add_eight_val, State.fill]

/-! ### A buffer that is written everywhere (R34, R50) -/

/-- Every cell of the buffer holds a byte. -/
def Memory.Full (m : Memory) : Prop := ∀ k : Offset, (m.read k.val).isSome = true

theorem Memory.Full.write {m : Memory} (h : m.Full) (a : Offset) (b : Byte) : (m.write a b).Full := by
  intro k
  rw [Memory.read_write]
  split
  · rfl
  · exact h k

theorem Memory.Full.zeroFill {m : Memory} (h : m.Full) (start stop : Nat) :
    (m.zeroFill start stop).Full := by
  intro k
  rw [Memory.read_zeroFill]
  split
  · rfl
  · exact h k

/-- INIT's zero fill writes every cell, whatever was there (R80). -/
theorem Memory.full_zeroFill_all (m : Memory) : (m.zeroFill 0 64).Full := by
  intro k
  rw [Memory.read_zeroFill, if_pos ⟨Nat.zero_le _, k.isLt, k.isLt⟩]
  rfl

theorem Memory.Full.writeBE {m : Memory} (hm : m.Full) (addr n : Nat) (v : BitVec (8 * n))
    (h : addr + n ≤ 64) : (m.writeBE addr n v h).Full := by
  intro k
  by_cases hin : addr ≤ k.val ∧ k.val < addr + n
  · have hk : k.val = addr + (⟨k.val - addr, by omega⟩ : Fin n).val := by simp only; omega
    rw [hk, Memory.read_writeBE_inside]
    rfl
  · rw [Memory.read_writeBE_outside _ _ _ _ _ _ (by omega)]
    exact hm k

theorem State.finalize_full {s : State} (h : s.buf.Full) : s.finalize.buf.Full := by
  have hpad := h.write s.fill 0x80#8
  simp only [State.finalize]
  split
  · exact ((hpad.zeroFill _ 64).zeroFill _ 56).writeBE _ _ _ _
  · exact (hpad.zeroFill _ 56).writeBE _ _ _ _

/-! ### The invariant, kept by each thing a step can do -/

/-- What a step that records no fault owes: the clauses on BUF and BITCNT. With ERR = 0 and the record left
as it was, the clauses on the record hold again, for ERRCODE is NONE. -/
theorem State.Inv.of_same_clear_record {s t : State} (h : s.Inv) (he : s.err = false)
    (herr : t.err = s.err) (hcode : t.errcode = s.errcode) (hcmd : t.errcmd = s.errcmd)
    (hwf : t.buf.wf = true) (hfull : t.buf.Full) (hbits : t.bitcnt.toNat % 8 = 0) : t.Inv := by
  have hnone : t.errcode = .none := hcode.trans (h.codeAgrees.2 he)
  exact {
    bufWf := hwf
    bufWritten := fun _ => hfull
    wholeBytes := fun _ => hbits
    codeAgrees := by rw [herr, hcode]; exact h.codeAgrees
    cmdClear := fun _ => hcmd.trans (h.cmdClear he)
    illegalRecord := fun hc => by simp [hnone] at hc
    badPhaseRecord := fun hc => by simp [hnone] at hc }

/-- Nothing in the invariant speaks of the host's side (log 3). -/
theorem State.Inv.accepted {s : State} (h : s.Inv) (rest : List HostInput) : (s.accepted rest).Inv :=
  ⟨h.bufWf, h.bufWritten, h.wholeBytes, h.codeAgrees, h.cmdClear, h.illegalRecord, h.badPhaseRecord⟩

/-- The state after reset has the invariant, whatever inputs are still to come (R34). -/
theorem State.afterReset_inv (s : State) (rest : List HostInput) : (s.afterReset rest).Inv where
  bufWf := State.reset_wf
  bufWritten := fun hp => absurd rfl hp
  wholeBytes := fun hp => absurd rfl hp
  codeAgrees := ⟨fun _ => rfl, fun _ => rfl⟩
  cmdClear := fun _ => rfl
  illegalRecord := nofun
  badPhaseRecord := nofun

/-- Recording an ILLEGAL_CMD for a word that decodes to no command keeps the invariant (R162, R166). -/
theorem State.Inv.recordIllegal {s : State} (h : s.Inv) {w : CmdWord} {e : DecodeError}
    (hd : decode w = .error e) : (s.recordFault .illegalCmd w).Inv where
  bufWf := h.bufWf
  bufWritten := h.bufWritten
  wholeBytes := h.wholeBytes
  codeAgrees := ⟨nofun, nofun⟩
  cmdClear := nofun
  illegalRecord := fun _ i => by simp [hd]
  badPhaseRecord := nofun

/-- Recording a BAD_PHASE outside READY for a command other than INIT keeps the invariant (R162, R164). -/
theorem State.Inv.recordBadPhase {s : State} (h : s.Inv) {i : Instr} (hi : i ≠ .init)
    (hp : s.phase ≠ .ready) : (s.recordFault .badPhase (encode i)).Inv where
  bufWf := h.bufWf
  bufWritten := h.bufWritten
  wholeBytes := h.wholeBytes
  codeAgrees := ⟨nofun, nofun⟩
  cmdClear := nofun
  illegalRecord := nofun
  badPhaseRecord := fun _ => ⟨hp, i, decode_encode i, hi⟩

theorem State.Inv.loadFresh {s : State} (h : s.Inv) (he : s.err = false) (cfg : Config) :
    (s.loadFresh cfg).Inv :=
  h.of_same_clear_record he rfl rfl rfl (State.loadFresh_wf h.bufWf cfg)
    (Memory.full_zeroFill_all s.buf) rfl

theorem State.Inv.absorbByte {s : State} (h : s.Inv) (he : s.err = false) (hp : s.phase = .ready)
    (b : Byte) : (s.absorbByte b).Inv := by
  have hrun : s.phase ≠ .uninit := by simp [hp]
  refine h.of_same_clear_record he (by simp) (by simp) (by simp) (State.absorbByte_wf h.bufWf b) ?_ ?_
  · rw [State.absorbByte_buf]
    exact Memory.Full.write (h.bufWritten hrun) s.fill b
  · have hbits := h.wholeBytes hrun
    rw [State.absorbByte_bitcnt, toNat_add_eight]
    omega

theorem State.Inv.finalize {s : State} (h : s.Inv) (he : s.err = false) (hp : s.phase = .ready) :
    s.finalize.Inv := by
  have hrun : s.phase ≠ .uninit := by simp [hp]
  refine h.of_same_clear_record he (by simp) (by simp) (by simp) (State.finalize_wf h.bufWf)
    (State.finalize_full (h.bufWritten hrun)) ?_
  rw [State.finalize_bitcnt]
  exact h.wholeBytes hrun

theorem ExecCase.keeps_inv {i : Instr} {s t : State} (hc : ExecCase i s t) (h : s.Inv) : t.Inv := by
  cases hc with
  | discarded _ => exact h
  | badPhase _ hi hp => exact h.recordBadPhase hi hp
  | init he _ => exact h.loadFresh he _
  | absorb b he _ hp => exact h.absorbByte he hp b
  | final he _ hp => exact h.finalize he hp

theorem StepCase.keeps_inv {s t : State} (hc : StepCase s t) (h : s.Inv) : t.Inv := by
  cases hc with
  | idle _ => exact h
  | reset rest _ => exact s.afterReset_inv rest
  | command w rest i t _ _ hexec => exact hexec.keeps_inv (h.accepted rest)
  | discarded w rest e _ _ _ => exact h.accepted rest
  | illegal w rest e _ hd _ => exact (h.accepted rest).recordIllegal hd

/-- Settles O19: what a step did (`step_inv`) keeps the invariant in each case. -/
theorem stepKeepsTheInvariant : Obligations.StepKeepsTheInvariant := by
  unfold Obligations.StepKeepsTheInvariant
  intro s t h hstep
  exact (step_inv hstep).keeps_inv h

/-- Settles O20: the reset state is the state after a reset with no input to come. -/
theorem resetStateHasTheInvariant : Obligations.ResetStateHasTheInvariant := by
  unfold Obligations.ResetStateHasTheInvariant
  exact State.reset.afterReset_inv []

end Sys2Proof.Machine

namespace Sys2Proof.Machine

open Sys2Proof

/-! ### Buffers that agree below an offset: the valid bytes of R23, the stale ones left open (R50) -/

theorem Memory.byte_of_read_eq {m m' : Memory} {k : Offset} (h : m.read k.val = m'.read k.val) :
    m.byte k = m'.byte k := by
  rw [Memory.byte, Memory.byte, h]

/-- A compression reads the same byte from both buffers at every offset below `n`. -/
def Memory.AgreeBelow (n : Nat) (m m' : Memory) : Prop := ∀ k : Offset, k.val < n → m.byte k = m'.byte k

theorem Memory.agreeBelow_zero (m m' : Memory) : Memory.AgreeBelow 0 m m' :=
  fun k hk => absurd hk (Nat.not_lt_zero k.val)

theorem Memory.AgreeBelow.mono {m m' : Memory} {n n' : Nat} (h : Memory.AgreeBelow n m m')
    (hle : n' ≤ n) : Memory.AgreeBelow n' m m' :=
  fun k hk => h k (Nat.lt_of_lt_of_le hk hle)

/-- A byte written at the first offset that may differ makes that offset agree too. -/
theorem Memory.AgreeBelow.write {m m' : Memory} {a : Offset} (h : Memory.AgreeBelow a.val m m')
    (b : Byte) : Memory.AgreeBelow (a.val + 1) (m.write a b) (m'.write a b) := by
  intro k hk
  by_cases hka : k.val = a.val
  · exact Memory.byte_of_read_eq (by rw [Memory.read_write, Memory.read_write, if_pos hka, if_pos hka])
  · simp only [Memory.byte, Memory.read_write, if_neg hka]
    exact h k (by omega)

/-- Zeros from the first offset that may differ carry the agreement up to where they stop. -/
theorem Memory.AgreeBelow.zeroFill {m m' : Memory} {n : Nat} (h : Memory.AgreeBelow n m m')
    (stop : Nat) : Memory.AgreeBelow stop (m.zeroFill n stop) (m'.zeroFill n stop) := by
  intro k hk
  by_cases hnk : n ≤ k.val
  · have hin : n ≤ k.val ∧ k.val < stop ∧ k.val < 64 := ⟨hnk, hk, k.isLt⟩
    exact Memory.byte_of_read_eq (by
      rw [Memory.read_zeroFill, Memory.read_zeroFill, if_pos hin, if_pos hin])
  · have hout : ¬ (n ≤ k.val ∧ k.val < stop ∧ k.val < 64) := fun hin => hnk hin.1
    simp only [Memory.byte, Memory.read_zeroFill, if_neg hout]
    exact h k (by omega)

/-- A number written at the first offset that may differ carries the agreement past its bytes. -/
theorem Memory.AgreeBelow.writeBE {m m' : Memory} {addr : Nat} (hm : Memory.AgreeBelow addr m m')
    (n : Nat) (v : BitVec (8 * n)) (h : addr + n ≤ 64) :
    Memory.AgreeBelow (addr + n) (m.writeBE addr n v h) (m'.writeBE addr n v h) := by
  intro k hk
  by_cases hin : addr ≤ k.val
  · have hoff : k.val = addr + (⟨k.val - addr, by omega⟩ : Fin n).val := by simp only; omega
    refine Memory.byte_of_read_eq ?_
    rw [hoff, Memory.read_writeBE_inside, Memory.read_writeBE_inside]
  · have hout : k.val < addr ∨ addr + n ≤ k.val := by omega
    simp only [Memory.byte, Memory.read_writeBE_outside _ _ _ _ _ _ hout]
    exact hm k (by omega)

theorem Memory.AgreeBelow.block_eq {m m' : Memory} (h : Memory.AgreeBelow 64 m m') :
    m.block = m'.block :=
  (Memory.block_eq_iff m m').2 fun k => h k k.isLt

/-! ### ABSORB and FINAL read the valid bytes only -/

theorem State.fill_eq_of_bitcnt_eq {s t : State} (h : s.bitcnt = t.bitcnt) : s.fill = t.fill := by
  rw [State.fill, State.fill, h]

/-- The byte absorbed at offset 63 completes the block, so nothing stale is left in it (R50, R121). -/
theorem State.absorbByte_v_eq {s t : State} (hv : s.v = t.v) (hc : s.bitcnt = t.bitcnt)
    (hb : Memory.AgreeBelow s.fill.val s.buf t.buf) (b : Byte) :
    (s.absorbByte b).v = (t.absorbByte b).v := by
  have hw := hb.write b
  rw [State.absorbByte_v, State.absorbByte_v, ← State.fill_eq_of_bitcnt_eq hc, ← hv]
  by_cases h63 : s.fill = 63
  · have hlast : s.fill.val + 1 = 64 := by rw [h63]; rfl
    rw [hlast] at hw
    rw [if_pos h63, if_pos h63, hw.block_eq]
  · rw [if_neg h63, if_neg h63]

/-- After an ABSORB the bytes below the new fill offset agree again; after a wrap there are none. -/
theorem State.absorbByte_agree {s t : State} (hc : s.bitcnt = t.bitcnt)
    (hb : Memory.AgreeBelow s.fill.val s.buf t.buf) (b : Byte) :
    Memory.AgreeBelow (s.absorbByte b).fill.val (s.absorbByte b).buf (t.absorbByte b).buf := by
  rw [State.absorbByte_fill_val, State.absorbByte_buf, State.absorbByte_buf,
    ← State.fill_eq_of_bitcnt_eq hc]
  exact (hb.write b).mono (Nat.mod_le _ _)

theorem State.spillBlock_v_eq {s t : State} {idx : Nat} (hv : s.v = t.v)
    (hb : Memory.AgreeBelow idx s.buf t.buf) : (s.spillBlock idx).v = (t.spillBlock idx).v := by
  rw [State.spillBlock_v, State.spillBlock_v, hv, (hb.zeroFill 64).block_eq]

/-- The zeros and the length fill the block from `idx` on (R134, R135). -/
theorem State.lengthBlock_v_eq {s t : State} {idx : Nat} (hv : s.v = t.v)
    (hb : Memory.AgreeBelow idx s.buf t.buf) (len : Count) :
    (s.lengthBlock idx len).v = (t.lengthBlock idx len).v := by
  rw [State.lengthBlock_v, State.lengthBlock_v, hv, State.lengthBlock_buf, State.lengthBlock_buf,
    ((hb.zeroFill 56).writeBE 8 len (by decide)).block_eq]

/-- FINAL's result depends on V, BITCNT and the valid bytes: padding overwrites the rest of the block, and the
second block, where there is one, is written whole (R132 to R135). -/
theorem State.finalize_v_eq {s t : State} (hv : s.v = t.v) (hc : s.bitcnt = t.bitcnt)
    (hb : Memory.AgreeBelow s.fill.val s.buf t.buf) : s.finalize.v = t.finalize.v := by
  have hpad : Memory.AgreeBelow (s.fill.val + 1) (s.padTerminator s.fill).buf
      (t.padTerminator s.fill).buf := hb.write 0x80#8
  have hvpad : (s.padTerminator s.fill).v = (t.padTerminator s.fill).v := hv
  simp only [State.finalize, ← State.fill_eq_of_bitcnt_eq hc, ← hc, State.setPhase_v]
  split
  · exact State.lengthBlock_v_eq (State.spillBlock_v_eq hvpad hpad) (Memory.agreeBelow_zero _ _) _
  · exact State.lengthBlock_v_eq hvpad hpad _

/-! ### The relation `SameView`, kept by each thing a step can do -/

theorem SameView.accepted {s t : State} (h : SameView s t) (rest : List HostInput) :
    SameView (s.accepted rest) (t.accepted rest) :=
  ⟨h.phase, h.err, h.errcode, h.errcmd, rfl, h.ready, h.finalized⟩

theorem SameView.recordFault {s t : State} (h : SameView s t) (code : ErrCode) (w : CmdWord) :
    SameView (s.recordFault code w) (t.recordFault code w) :=
  ⟨h.phase, rfl, rfl, rfl, h.inputs, h.ready, h.finalized⟩

/-- Reset leaves nothing of the old state (R180). -/
theorem SameView.afterReset (s t : State) (rest : List HostInput) :
    SameView (s.afterReset rest) (t.afterReset rest) :=
  ⟨rfl, rfl, rfl, rfl, rfl, nofun, nofun⟩

/-- INIT leaves no byte of the buffer valid, and loads V and BITCNT (R80). -/
theorem SameView.loadFresh {s t : State} (h : SameView s t) (cfg : Config) :
    SameView (s.loadFresh cfg) (t.loadFresh cfg) where
  phase := rfl
  err := h.err
  errcode := h.errcode
  errcmd := h.errcmd
  inputs := h.inputs
  ready := fun _ => ⟨rfl, rfl, fun k hk => by simp at hk⟩
  finalized := nofun

theorem SameView.absorbByte {s t : State} (h : SameView s t) (hp : s.phase = .ready) (b : Byte) :
    SameView (s.absorbByte b) (t.absorbByte b) := by
  obtain ⟨hv, hc, hb⟩ := h.ready hp
  exact {
    phase := by simp [h.phase]
    err := by simp [h.err]
    errcode := by simp [h.errcode]
    errcmd := by simp [h.errcmd]
    inputs := by simp [h.inputs]
    ready := fun _ => ⟨State.absorbByte_v_eq hv hc hb b, by simp [hc], State.absorbByte_agree hc hb b⟩
    finalized := fun _ => State.absorbByte_v_eq hv hc hb b }

theorem SameView.finalize {s t : State} (h : SameView s t) (hp : s.phase = .ready) :
    SameView s.finalize t.finalize := by
  obtain ⟨hv, hc, hb⟩ := h.ready hp
  exact {
    phase := by simp
    err := by simp [h.err]
    errcode := by simp [h.errcode]
    errcmd := by simp [h.errcmd]
    inputs := by simp [h.inputs]
    ready := fun hr => by simp at hr
    finalized := fun _ => State.finalize_v_eq hv hc hb }

/-- Two results are next states that show the same. -/
def SameViewResult (r r' : Result) : Prop :=
  ∃ s t, r = .next s ∧ r' = .next t ∧ SameView s t

/-- Both states take the same branch of R165, for ERR and PHASE are in view. -/
theorem SameView.exec {s t : State} (h : SameView s t) (i : Instr) :
    SameViewResult (exec i s) (exec i t) := by
  cases he : s.err with
  | true => exact ⟨s, t, exec_of_err he i, exec_of_err (h.err ▸ he) i, h⟩
  | false =>
    have he' : t.err = false := h.err ▸ he
    cases i with
    | init => exact ⟨_, _, exec_init_of_clear he, exec_init_of_clear he', h.loadFresh _⟩
    | absorb b =>
      by_cases hp : s.phase = .ready
      · exact ⟨_, _, exec_absorb_of_ready he hp b, exec_absorb_of_ready he' (h.phase ▸ hp) b,
          h.absorbByte hp b⟩
      · exact ⟨_, _, exec_of_not_ready he nofun hp, exec_of_not_ready he' nofun (h.phase ▸ hp),
          h.recordFault _ _⟩
    | final =>
      by_cases hp : s.phase = .ready
      · exact ⟨_, _, exec_final_of_ready he hp, exec_final_of_ready he' (h.phase ▸ hp), h.finalize hp⟩
      · exact ⟨_, _, exec_of_not_ready he nofun hp, exec_of_not_ready he' nofun (h.phase ▸ hp),
          h.recordFault _ _⟩

theorem SameView.acceptCommand {s t : State} (h : SameView s t) (w : CmdWord) :
    SameViewResult (acceptCommand w s) (acceptCommand w t) := by
  cases hd : decode w with
  | ok i =>
    rw [acceptCommand_of_ok hd, acceptCommand_of_ok hd]
    exact h.exec i
  | error e =>
    cases he : s.err with
    | true => exact ⟨s, t, acceptCommand_of_err hd he, acceptCommand_of_err hd (h.err ▸ he), h⟩
    | false =>
      exact ⟨_, _, acceptCommand_of_illegal hd he, acceptCommand_of_illegal hd (h.err ▸ he),
        h.recordFault _ _⟩

theorem SameView.step {s t : State} (h : SameView s t) : SameViewResult (step s) (step t) := by
  cases hin : s.inputs with
  | nil => exact ⟨s, t, step_idle hin, step_idle (h.inputs ▸ hin), h⟩
  | cons input rest =>
    have hin' : t.inputs = input :: rest := h.inputs ▸ hin
    cases input with
    | reset => exact ⟨_, _, step_reset hin, step_reset hin', SameView.afterReset s t rest⟩
    | command w =>
      rw [step_command hin, step_command hin']
      exact (h.accepted rest).acceptCommand w

theorem SameView.digest_eq {s t : State} (h : SameView s t) : s.digest = t.digest := by
  rw [State.digest, State.digest, ← h.phase, ← h.err]
  by_cases hshow : s.phase = .finalized ∧ s.err = false
  · rw [if_pos hshow, if_pos hshow, h.finalized hshow.1]
  · rw [if_neg hshow, if_neg hshow]

theorem SameView.outputs_eq {s t : State} (h : SameView s t) : s.outputs = t.outputs := by
  have hstatus : s.status = t.status := by
    rw [State.status, State.status, h.phase, h.err, h.errcode]
  simp only [State.outputs, State.cmdReady, hstatus, h.errcmd, h.digest_eq]

/-- Settles O35: the ports show nothing out of view (`SameView.outputs_eq`), and the two steps take the same
branch and keep the relation (`SameView.step`). -/
theorem unobservableStateStaysUnobserved : Obligations.UnobservableStateStaysUnobserved := by
  unfold Obligations.UnobservableStateStaysUnobserved
  refine ⟨fun s t h => h.outputs_eq, fun s t s' t' h hs ht => ?_⟩
  obtain ⟨u, u', hu, hu', hview⟩ := h.step
  cases hs.symm.trans hu
  cases ht.symm.trans hu'
  exact hview

end Sys2Proof.Machine

namespace Sys2Proof.Machine

open Sys2Proof

/-! ### The engine never reads the host's side (R31, D6, log 3) -/

/-- The same engine with another host's side. -/
def State.withHost (s : State) (cp : Nat) (inputs : List HostInput) : State :=
  { s with cp := cp, inputs := inputs }

theorem State.absorbByte_withHost (s : State) (b : Byte) (n : Nat) (ins : List HostInput) :
    (s.withHost n ins).absorbByte b = (s.absorbByte b).withHost n ins := by
  have hfill : (s.withHost n ins).fill = s.fill := rfl
  simp only [State.absorbByte, hfill]
  split <;> rfl

theorem State.finalize_withHost (s : State) (n : Nat) (ins : List HostInput) :
    (s.withHost n ins).finalize = s.finalize.withHost n ins := by
  have hfill : (s.withHost n ins).fill = s.fill := rfl
  simp only [State.finalize, hfill]
  split <;> rfl

/-- `run` answers a next state that keeps the host's side of `s`, and `run'` answers the same engine with the
host's side `n` and `ins`. -/
def SameOnHost (s : State) (n : Nat) (ins : List HostInput) (run run' : Result) : Prop :=
  ∃ t, run = .next t ∧ t.cp = s.cp ∧ t.inputs = s.inputs ∧ run' = .next (t.withHost n ins)

theorem exec_sameOnHost (i : Instr) (s : State) (n : Nat) (ins : List HostInput) :
    SameOnHost s n ins (exec i s) (exec i (s.withHost n ins)) := by
  obtain ⟨t, ht, hc⟩ := exec_cases i s
  cases hc with
  | discarded he => exact ⟨_, ht, rfl, rfl, exec_of_err (s := s.withHost n ins) he i⟩
  | badPhase he hi hp => exact ⟨_, ht, rfl, rfl, exec_of_not_ready (s := s.withHost n ins) he hi hp⟩
  | init he hi => subst hi; exact ⟨_, ht, rfl, rfl, exec_init_of_clear (s := s.withHost n ins) he⟩
  | absorb b he hi hp =>
    subst hi
    refine ⟨_, ht, by simp, by simp, ?_⟩
    rw [← State.absorbByte_withHost]
    exact exec_absorb_of_ready (s := s.withHost n ins) he hp b
  | final he hi hp =>
    subst hi
    refine ⟨_, ht, by simp, by simp, ?_⟩
    rw [← State.finalize_withHost]
    exact exec_final_of_ready (s := s.withHost n ins) he hp

theorem acceptCommand_sameOnHost (w : CmdWord) (s : State) (n : Nat) (ins : List HostInput) :
    SameOnHost s n ins (acceptCommand w s) (acceptCommand w (s.withHost n ins)) := by
  cases hd : decode w with
  | ok i =>
    rw [acceptCommand_of_ok hd, acceptCommand_of_ok hd]
    exact exec_sameOnHost i s n ins
  | error e =>
    cases he : s.err with
    | true => exact ⟨s, acceptCommand_of_err hd he, rfl, rfl, acceptCommand_of_err hd he⟩
    | false => exact ⟨_, acceptCommand_of_illegal hd he, rfl, rfl, acceptCommand_of_illegal hd he⟩

theorem acceptAll_cons {w : CmdWord} {s t : State} (h : acceptCommand w s = .next t)
    (ws : List CmdWord) : acceptAll (w :: ws) s = acceptAll ws t := by
  simp only [acceptAll, h]

theorem steps_succ {s t : State} (h : step s = .next t) (k : Nat) : steps (k + 1) s = steps k t := by
  simp only [steps, h]

/-- A stream accepted on one host's side and stepped through on another, where it is offered, ends with the
same engine. -/
theorem steps_offered_sameOnHost (ws : List CmdWord) (rest : List HostInput) :
    ∀ (s : State) (n : Nat), SameOnHost s (n + ws.length) rest (acceptAll ws s)
      (steps ws.length (s.withHost n (asInputs ws ++ rest))) := by
  induction ws with
  | nil => exact fun s n => ⟨s, rfl, rfl, rfl, rfl⟩
  | cons w ws ih =>
    intro s n
    obtain ⟨u, hu, hcp, hin, hstep⟩ := acceptCommand_sameOnHost w s (n + 1) (asInputs ws ++ rest)
    obtain ⟨t, ht, hcp', hin', hsteps⟩ := ih u (n + 1)
    have hfirst : step (s.withHost n (asInputs (w :: ws) ++ rest)) =
        .next (u.withHost (n + 1) (asInputs ws ++ rest)) := (step_command rfl).trans hstep
    refine ⟨t, (acceptAll_cons hu ws).trans ht, hcp'.trans hcp, hin'.trans hin, ?_⟩
    rw [List.length_cons, steps_succ hfirst, hsteps, Nat.add_assoc, Nat.add_comm 1]

/-- Settles O5: the state is the same engine on its own host's side, so `steps_offered_sameOnHost` applies. -/
theorem stepsRunTheOfferedStream : Obligations.StepsRunTheOfferedStream := by
  unfold Obligations.StepsRunTheOfferedStream
  intro s ws rest hin
  obtain ⟨t, ht, hcp, hinputs, hsteps⟩ := steps_offered_sameOnHost ws rest s s.cp
  rw [← hin] at hsteps
  exact ⟨t, ht, hcp, hinputs, hsteps⟩

/-- Settles O11: the wrap at 2^64 keeps BITCNT modulo 512. -/
theorem fillOffsetAdvancesAcrossTheWrap : Obligations.FillOffsetAdvancesAcrossTheWrap := by
  unfold Obligations.FillOffsetAdvancesAcrossTheWrap
  intro c
  refine ⟨?_, fillOf_add_eight_val c, fun hbits hfill => ?_⟩
  · rw [fillOf_val]
    omega
  · have h63 : c.toNat / 8 % 64 = 63 := (fillOf_val c).symm.trans (congrArg Fin.val hfill)
    rw [toNat_add_eight]
    omega

/-! ### STATUS by its fields (R26) -/

theorem extractLsb'_append_low {n m : Nat} (hi : BitVec n) (lo : BitVec m) :
    (hi ++ lo).extractLsb' 0 m = lo := by
  rw [BitVec.extractLsb'_append_eq_of_add_le (Nat.zero_add m).le, BitVec.extractLsb'_eq_self]

theorem State.status_phase (s : State) : s.status.extractLsb' 0 2 = phaseCode s.phase :=
  extractLsb'_append_low _ _

theorem State.status_errcode (s : State) : s.status.extractLsb' 3 2 = errCodeBits s.errcode := by
  rw [State.status, BitVec.extractLsb'_append_eq_of_le (by decide),
    BitVec.extractLsb'_append_eq_of_le (by decide)]
  exact extractLsb'_append_low _ _

theorem State.status_err (s : State) : s.status.getLsbD 2 = s.err := by
  rw [State.status, BitVec.getLsbD_append, if_neg (by decide), BitVec.getLsbD_append, if_pos (by decide)]
  exact BitVec.getLsbD_ofBool _ _

theorem State.status_high (s : State) : s.status.extractLsb' 5 3 = 0#3 := by
  rw [State.status, BitVec.extractLsb'_append_eq_of_le (by decide),
    BitVec.extractLsb'_append_eq_of_le (by decide), BitVec.extractLsb'_append_eq_of_le (by decide),
    BitVec.extractLsb'_eq_self]

theorem phaseCode_ne_three (p : Phase) : phaseCode p ≠ 3#2 := by
  cases p <;> decide

/-- Settles O21: each field of STATUS by its own lemma; the ports are the views themselves. -/
theorem statusWordFields : Obligations.StatusWordFields := by
  unfold Obligations.StatusWordFields
  refine ⟨fun s => ⟨?_, ?_, s.status_err, ?_, s.status_high, rfl, rfl⟩, rfl⟩
  · rw [s.status_phase]
    cases s.phase <;> rfl
  · rw [s.status_phase]
    exact phaseCode_ne_three s.phase
  · rw [s.status_errcode]
    cases s.errcode <;> rfl

/-- Settles O22: ERR and ERRCODE agree, and a BAD_PHASE stands outside READY. -/
theorem onlyEightStatusValuesOccur : Obligations.OnlyEightStatusValuesOccur := by
  unfold Obligations.OnlyEightStatusValuesOccur
  intro s h
  have hst : s.status = 0#3 ++ errCodeBits s.errcode ++ BitVec.ofBool s.err ++ phaseCode s.phase := rfl
  cases he : s.err with
  | false =>
    rw [hst, h.codeAgrees.2 he, he]
    cases s.phase <;> decide
  | true =>
    cases hcode : s.errcode with
    | none => simp [h.codeAgrees.1 hcode] at he
    | illegalCmd =>
      rw [hst, hcode, he]
      cases s.phase <;> decide
    | badPhase =>
      obtain ⟨hready, _⟩ := h.badPhaseRecord hcode
      rw [hst, hcode, he]
      cases hp : s.phase with
      | uninit => decide
      | ready => exact absurd hp hready
      | finalized => decide

/-! ### The digest port and the serialisation of V (R27, R44) -/

/-- A field of a field is a field. -/
theorem extractLsb'_of_extractLsb' {w : Nat} (x : BitVec w) {a n b l : Nat} (h : b + l ≤ n) :
    (x.extractLsb' a n).extractLsb' b l = x.extractLsb' (a + b) l := by
  ext j hj
  have hlt : b + j < n := by omega
  simp [hlt, Nat.add_assoc]

/-- `DIGEST[255-32i : 224-32i]` is `V[i]` (R27): the words below it are skipped one by one. -/
theorem chainBits_word (v : Chain) (i : Fin 8) :
    (chainBits v).extractLsb' (224 - 32 * i.val) 32 = chainWord v i := by
  rw [chainBits]
  fin_cases i
  · repeat rw [BitVec.extractLsb'_append_eq_of_le (by decide)]
    exact BitVec.extractLsb'_eq_self
  all_goals
    repeat rw [BitVec.extractLsb'_append_eq_of_le (by decide)]
    exact extractLsb'_append_low _ _

theorem getElem_serialise (v : Chain) (n : Nat) (hn : n < 32) : (serialise v)[n] =
    (chainWord v (Fin.ofNat 8 (n / 4))).extractLsb' (24 - 8 * (n % 4)) 8 := by
  simp only [serialise, Vector.getElem_ofFn]

/-- Byte `k` of the port is byte `k mod 4` of word `k / 4`, as in the serialisation. -/
theorem digestByte_chainBits (v : Chain) (k : Fin 32) :
    digestByte (chainBits v) k = (serialise v)[k.val] := by
  have hword := chainBits_word v (Fin.ofNat 8 (k.val / 4))
  have hpos : 224 - 32 * (Fin.ofNat 8 (k.val / 4)).val + (24 - 8 * (k.val % 4)) = 248 - 8 * k.val := by
    simp only [Fin.ofNat]
    omega
  rw [getElem_serialise, ← hword, extractLsb'_of_extractLsb' _ (by omega), hpos, digestByte]

theorem State.digest_eq_some_iff (s : State) (d : BitVec 256) :
    s.digest = some d ↔ (s.phase = .finalized ∧ s.err = false) ∧ d = chainBits s.v := by
  rw [State.digest, Option.ite_none_right_eq_some, Option.some.injEq, eq_comm (a := d)]

theorem State.digest_isSome_iff (s : State) :
    s.digest.isSome = true ↔ s.phase = .finalized ∧ s.err = false := by
  simp [State.digest]

theorem getElem?_serialise (v : Chain) (i : Fin 8) (k : Fin 4) :
    (serialise v)[4 * i.val + k.val]? = some ((chainWord v i).extractLsb' (24 - 8 * k.val) 8) := by
  have hi : Fin.ofNat 8 ((4 * i.val + k.val) / 4) = i := Fin.ext (by simp only [Fin.ofNat]; omega)
  have hk : (4 * i.val + k.val) % 4 = k.val := by omega
  rw [Vector.getElem?_eq_getElem (by omega), getElem_serialise, hi, hk]

/-- R44's example: the first word's bytes come most significant first. -/
theorem serialise_take_four {v : Chain} (hv : v.v0 = 0x66c7f0f4#32) :
    (serialise v).toList.take 4 = [0x66#8, 0xc7#8, 0xf0#8, 0xf4#8] := by
  refine List.ext_getElem (by simp) fun n _ hn => ?_
  have hlt : n < 4 := hn
  have hword : chainWord v (Fin.ofNat 8 (n / 4)) = 0x66c7f0f4#32 := by
    rw [Nat.div_eq_of_lt hlt]
    exact hv
  rw [List.getElem_take, Vector.getElem_toList, getElem_serialise, hword, Nat.mod_eq_of_lt hlt]
  interval_cases n <;> rfl

/-- Settles O23: the port is `chainBits`, read word by word and byte by byte. -/
theorem digestPortShowsTheChainingValue : Obligations.DigestPortShowsTheChainingValue := by
  unfold Obligations.DigestPortShowsTheChainingValue
  refine ⟨State.digest_isSome_iff, fun _ => rfl, fun s d hd => ?_, getElem?_serialise,
    fun _ hv => serialise_take_four hv⟩
  obtain ⟨_, rfl⟩ := (s.digest_eq_some_iff d).1 hd
  exact ⟨chainBits_word s.v, digestByte_chainBits s.v⟩

/-! ### What a step on an offered word does to V, BUF, BITCNT and PHASE (R20 to R24) -/

/-- A step on an offered word leaves the four registers alone, or ERR was 0 and it ran the body of the
command that the word stands for. -/
inductive WriteCase (s : State) (rest : List HostInput) : CmdWord → State → Prop where
  | kept {w : CmdWord} {t : State} : t.v = s.v → t.buf = s.buf → t.bitcnt = s.bitcnt →
      t.phase = s.phase → WriteCase s rest w t
  | init : s.err = false → WriteCase s rest 0x0100#16 ((s.accepted rest).loadFresh Config.engine)
  | absorb (b : Byte) : s.err = false → s.phase = .ready →
      WriteCase s rest (0x02#8 ++ b) ((s.accepted rest).absorbByte b)
  | final : s.err = false → s.phase = .ready →
      WriteCase s rest 0x0300#16 (s.accepted rest).finalize

theorem step_writeCase {s t : State} {w : CmdWord} {rest : List HostInput}
    (hin : s.inputs = .command w :: rest) (hstep : step s = .next t) : WriteCase s rest w t := by
  cases step_inv hstep with
  | idle h => simp [hin] at h
  | reset rest' h => simp [hin] at h
  | command w' rest' i t' h hd hexec =>
    obtain ⟨rfl, rfl⟩ : w = w' ∧ rest = rest' := by simpa [hin] using h
    have hw := eq_encode_of_decode hd
    cases hexec with
    | discarded _ => exact .kept rfl rfl rfl rfl
    | badPhase _ _ _ => exact .kept rfl rfl rfl rfl
    | init he hi => subst hi hw; exact .init he
    | absorb b he hi hp =>
      subst hi
      rw [hw, encode_absorb]
      exact .absorb b he hp
    | final he hi hp => subst hi hw; exact .final he hp
  | discarded w' rest' e _ _ _ => exact .kept rfl rfl rfl rfl
  | illegal w' rest' e _ _ _ => exact .kept rfl rfl rfl rfl

/-- Settles O24, by which command the step ran. -/
theorem onlyNamedCommandsWriteTheRegisters : Obligations.OnlyNamedCommandsWriteTheRegisters := by
  unfold Obligations.OnlyNamedCommandsWriteTheRegisters
  intro s t w rest hin hstep
  cases step_writeCase hin hstep with
  | kept hv hbuf hbits hphase =>
    exact ⟨fun h => absurd hv h, fun h => absurd hbits h, fun h => absurd hphase h,
      fun a h => absurd (congrArg (Memory.read · a) hbuf) h⟩
  | init he =>
    exact ⟨fun _ => ⟨he, .inl rfl⟩, fun _ => ⟨he, .inl rfl⟩, fun _ => ⟨he, .inl rfl⟩,
      fun _ _ => ⟨he, .inl rfl⟩⟩
  | absorb b he _ =>
    refine ⟨fun h => ⟨he, .inr (.inr ⟨⟨b, rfl⟩, ?_⟩)⟩, fun _ => ⟨he, .inr ⟨b, rfl⟩⟩,
      fun h => absurd (State.absorbByte_phase _ b) h, fun a h => ⟨he, .inr (.inr ⟨⟨b, rfl⟩, ?_⟩)⟩⟩
    · by_contra hfill
      exact h ((State.absorbByte_v _ b).trans (if_neg hfill))
    · by_contra ha
      rw [State.absorbByte_buf, Memory.read_write] at h
      exact h (if_neg ha)
  | final he _ =>
    exact ⟨fun _ => ⟨he, .inr (.inl rfl)⟩, fun h => absurd (State.finalize_bitcnt _) h,
      fun _ => ⟨he, .inr rfl⟩, fun _ _ => ⟨he, .inr (.inl rfl)⟩⟩

/-- Settles O25, by which command the step ran. -/
theorem phaseFollowsTheStateMachine : Obligations.PhaseFollowsTheStateMachine := by
  unfold Obligations.PhaseFollowsTheStateMachine
  intro s t w rest hin hstep
  cases step_writeCase hin hstep with
  | kept _ _ _ hphase => exact .inl hphase
  | init _ => exact .inr (.inl ⟨rfl, rfl⟩)
  | absorb b _ _ => exact .inl (State.absorbByte_phase _ b)
  | final _ hp => exact .inr (.inr ⟨State.finalize_phase _, hp, rfl⟩)

/-! ### One step by its input, and the state after reset (R165, R180, R34) -/

/-- Settles O4: the state with the word taken is `State.accepted`. -/
theorem stepRunsTheDecodedCommand : Obligations.StepRunsTheDecodedCommand := by
  unfold Obligations.StepRunsTheDecodedCommand
  intro s w rest i hin hd
  exact (step_command hin).trans (acceptCommand_of_ok hd (s.accepted rest))

/-- Settles O6: the reset input gives `State.afterReset`, and an idle step its own state. -/
theorem resetAndIdleInputs : Obligations.ResetAndIdleInputs := by
  unfold Obligations.ResetAndIdleInputs
  exact ⟨fun s rest hin =>
    ⟨s.afterReset rest, step_reset hin, rfl, rfl, rfl, rfl, fun _ => rfl, rfl, rfl⟩,
    fun _ hin => step_idle hin⟩

/-- Settles O7: each entry of the table is a field of `State.reset`, or a view of them. -/
theorem resetStateAsTabled : Obligations.ResetStateAsTabled := by
  unfold Obligations.ResetStateAsTabled
  exact ⟨rfl, rfl, rfl, rfl, fun _ => rfl, rfl, rfl, rfl⟩

end Sys2Proof.Machine

namespace Sys2Proof.Machine

open Sys2Proof

/-! ### The schedule word by word (R98, R99, R100) -/

theorem getElem?_eq_some_scheduleWord {ws : List Word} {i : Nat} (h : i < ws.length) :
    ws[i]? = some (scheduleWord ws i) := by
  rw [scheduleWord, List.getD_eq_getElem _ _ h, List.getElem?_eq_getElem h]

/-- The schedule after `n` words of the expansion. -/
def schedulePrefix (b : Block) (n : Nat) : List Word :=
  (List.range' 16 n).foldl (fun ws i => ws ++ [expandedWord ws i]) (parse b)

theorem schedule_eq_schedulePrefix (b : Block) : schedule b = schedulePrefix b 52 := rfl

theorem schedulePrefix_zero (b : Block) : schedulePrefix b 0 = parse b := rfl

theorem schedulePrefix_succ (b : Block) (n : Nat) : schedulePrefix b (n + 1) =
    schedulePrefix b n ++ [expandedWord (schedulePrefix b n) (16 + n)] := by
  rw [schedulePrefix, List.range'_1_concat, List.foldl_append, ← schedulePrefix]
  rfl

@[simp] theorem length_schedulePrefix (b : Block) (n : Nat) : (schedulePrefix b n).length = 16 + n := by
  induction n with
  | zero => exact length_parse b
  | succ n ih => rw [schedulePrefix_succ, List.length_append, ih, List.length_singleton, Nat.add_assoc]

/-- The expansion only appends: a word once written stays. -/
theorem scheduleWord_schedulePrefix_of_le (b : Block) {n m i : Nat} (hnm : n ≤ m) (hi : i < 16 + n) :
    scheduleWord (schedulePrefix b m) i = scheduleWord (schedulePrefix b n) i := by
  induction m, hnm using Nat.le_induction with
  | base => rfl
  | succ m hnm ih =>
    have hlt : i < (schedulePrefix b m).length := by
      rw [length_schedulePrefix]
      omega
    rw [schedulePrefix_succ, scheduleWord_append_of_lt hlt, ih]

theorem scheduleWord_schedulePrefix_new (b : Block) (n : Nat) :
    scheduleWord (schedulePrefix b (n + 1)) (16 + n) = expandedWord (schedulePrefix b n) (16 + n) := by
  rw [schedulePrefix_succ]
  simpa only [length_schedulePrefix] using
    scheduleWord_append_length (schedulePrefix b n) (expandedWord (schedulePrefix b n) (16 + n))

/-- R99 reads five words, all of them before the one it writes. -/
theorem expandedWord_congr {ws ws' : List Word} {i : Nat} (hi : 16 ≤ i)
    (h : ∀ k, k < i → scheduleWord ws k = scheduleWord ws' k) :
    expandedWord ws i = expandedWord ws' i := by
  have hback (d : Nat) (hd : 0 < d) : scheduleWord ws (i - d) = scheduleWord ws' (i - d) :=
    h (i - d) (by omega)
  simp only [expandedWord, hback _ (Nat.succ_pos _)]

@[simp] theorem length_schedule (b : Block) : (schedule b).length = 68 := by
  rw [schedule_eq_schedulePrefix, length_schedulePrefix]

/-- R98: the schedule starts with the block's words. -/
theorem scheduleWord_schedule_of_block (b : Block) (i : Fin 16) :
    scheduleWord (schedule b) i.val = blockWord b i := by
  rw [schedule_eq_schedulePrefix, scheduleWord_schedulePrefix_of_le b (Nat.zero_le 52) (by omega),
    schedulePrefix_zero, scheduleWord_parse]

/-- R99, read off the finished schedule. -/
theorem scheduleWord_schedule_of_expanded (b : Block) {i : Nat} (hge : 16 ≤ i) (hlt : i < 68) :
    scheduleWord (schedule b) i = expandedWord (schedule b) i := by
  obtain ⟨n, rfl⟩ := Nat.exists_eq_add_of_le hge
  have hn : n < 52 := by omega
  calc scheduleWord (schedulePrefix b 52) (16 + n)
      _ = scheduleWord (schedulePrefix b (n + 1)) (16 + n) :=
        scheduleWord_schedulePrefix_of_le b hn (by omega)
      _ = expandedWord (schedulePrefix b n) (16 + n) := scheduleWord_schedulePrefix_new b n
      _ = expandedWord (schedulePrefix b 52) (16 + n) :=
        expandedWord_congr hge fun _ hk => (scheduleWord_schedulePrefix_of_le b hn.le hk).symm

@[simp] theorem length_derivedWords (ws : List Word) : (derivedWords ws).length = 64 := by
  rw [derivedWords, List.length_map, List.length_range]

/-- R100: a derived word is the XOR of two schedule words, four apart. -/
theorem scheduleWord_derivedWords (ws : List Word) {i : Nat} (h : i < 64) :
    scheduleWord (derivedWords ws) i = scheduleWord ws i ^^^ scheduleWord ws (i + 4) := by
  simp [scheduleWord, derivedWords, List.getD_eq_getElem?_getD, h]

/-- Settles O30: each list entry is a schedule word, and each schedule word is what its rule says. -/
theorem scheduleFollowsTheRecurrence : Obligations.ScheduleFollowsTheRecurrence := by
  unfold Obligations.ScheduleFollowsTheRecurrence
  refine ⟨⟨fun _ => rfl, by decide⟩, fun b => ⟨length_schedule b, length_derivedWords _, ?_, ?_, ?_⟩⟩
  · intro i
    rw [getElem?_eq_some_scheduleWord (by rw [length_schedule]; omega), scheduleWord_schedule_of_block,
      blockWord]
  · intro i hge hlt
    rw [getElem?_eq_some_scheduleWord (by rwa [length_schedule]),
      scheduleWord_schedule_of_expanded b hge hlt, expandedWord]
  · intro i hi
    rw [getElem?_eq_some_scheduleWord (by rwa [length_derivedWords]), scheduleWord_derivedWords _ hi]

end Sys2Proof.Machine

namespace Sys2Proof

/-! ### The fields of a command word (R60 to R63) -/

theorem RawCmd.wellFormed_iff (c : RawCmd) : c.wellFormed = true ↔
    (c.op = 0x01#8 ∧ c.imm8 = 0x00#8) ∨ c.op = 0x02#8 ∨ (c.op = 0x03#8 ∧ c.imm8 = 0x00#8) := by
  simp only [RawCmd.wellFormed, RawCmd.opDefined, RawCmd.immAllowed, Bool.and_eq_true, Bool.or_eq_true,
    Bool.not_eq_true', Bool.or_eq_false_iff, beq_iff_eq, beq_eq_false_iff_ne]
  bv_omega

/-- R60: a word is its two fields, op above imm8. -/
theorem RawCmd.op_append_imm8 (w : CmdWord) : (RawCmd.ofWord w).op ++ (RawCmd.ofWord w).imm8 = w :=
  (BitVec.extractLsb'_append_extractLsb'_eq_extractLsb' rfl).trans BitVec.extractLsb'_eq_self

theorem RawCmd.op_toNat (w : CmdWord) : (RawCmd.ofWord w).op.toNat = w.toNat / 256 := by
  have hw := w.isLt
  rw [RawCmd.ofWord, BitVec.extractLsb'_toNat]
  omega

theorem RawCmd.imm8_toNat (w : CmdWord) : (RawCmd.ofWord w).imm8.toNat = w.toNat % 256 := by
  rw [RawCmd.ofWord, BitVec.extractLsb'_toNat]
  omega

/-- No command's word fails the checks of R61 to R63. -/
theorem RawCmd.wellFormed_encode (i : Instr) : (RawCmd.ofWord (encode i)).wellFormed = true := by
  obtain ⟨-, hword, -⟩ : Laws.LegalWord.Statement i := by
    cases i with
    | init => exact Laws.LegalWord.init
    | absorb b => exact Laws.LegalWord.absorb b
    | final => exact Laws.LegalWord.final
  exact hword

end Sys2Proof

namespace Sys2Proof.Machine

open Sys2Proof

/-! ### The legal words, by their fields and by their numbers (R60 to R65) -/

/-- Settles O1: the decoder undoes the encoder, and answers a command on no other word. -/
theorem commandWordsDecodeExactly : Obligations.CommandWordsDecodeExactly := by
  unfold Obligations.CommandWordsDecodeExactly
  intro w i
  constructor
  · exact eq_encode_of_decode
  · rintro rfl
    exact decode_encode i

/-- The decoder accepts the words that pass the checks of R61 to R63. -/
theorem decode_isOk_iff_wellFormed (w : CmdWord) :
    (∃ i, decode w = .ok i) ↔ (RawCmd.ofWord w).wellFormed = true := by
  constructor
  · rintro ⟨i, hi⟩
    rw [eq_encode_of_decode hi]
    exact RawCmd.wellFormed_encode i
  · intro h
    have hw := RawCmd.op_append_imm8 w
    obtain ⟨hop, himm⟩ | hop | ⟨hop, himm⟩ := (RawCmd.wellFormed_iff _).1 h
    · rw [hop, himm] at hw
      exact ⟨.init, hw ▸ decode_encode .init⟩
    · rw [hop, ← encode_absorb] at hw
      exact ⟨_, hw ▸ decode_encode (.absorb _)⟩
    · rw [hop, himm] at hw
      exact ⟨.final, hw ▸ decode_encode .final⟩

theorem decode_isError_iff (w : CmdWord) :
    (∃ e, decode w = .error e) ↔ ¬ ∃ i, decode w = .ok i := by
  cases decode w <;> simp

/-- The numbers of the legal words: 0x0100, 0x0200 to 0x02ff, and 0x0300. -/
theorem wellFormed_iff_toNat (w : CmdWord) : (RawCmd.ofWord w).wellFormed = true ↔
    w.toNat = 256 ∨ (512 ≤ w.toNat ∧ w.toNat ≤ 768) := by
  simp only [RawCmd.wellFormed_iff, BitVec.toNat_eq, RawCmd.op_toNat, RawCmd.imm8_toNat, BitVec.toNat_ofNat]
  omega

/-- The numbers below 65536 that the decoder accepts. -/
def legalNumbers : Finset Nat := insert 256 (Finset.Icc 512 768)

theorem card_legalNumbers : legalNumbers.card = 258 := by
  rw [legalNumbers, Finset.card_insert_of_notMem (by simp), Nat.card_Icc]

theorem decodeTableWord_isSome_iff (nbits n : Nat) :
    (decodeTableWord nbits n).isSome = true ↔ ∃ i, decode (tableWord nbits n) = .ok i := by
  unfold decodeTableWord
  cases decode (tableWord nbits n) <;> simp

theorem mem_legalNumbers_iff (n : Nat) :
    n ∈ legalNumbers ↔ n < 65536 ∧ (decodeTableWord 16 n).isSome = true := by
  rw [decodeTableWord_isSome_iff, decode_isOk_iff_wellFormed, wellFormed_iff_toNat, tableWord,
    BitVec.toNat_ofNat, legalNumbers, Finset.mem_insert, Finset.mem_Icc]
  omega

theorem countP_range_eq_card {p : Nat → Bool} {N : Nat} {S : Finset Nat}
    (hS : ∀ n, n ∈ S ↔ n < N ∧ p n = true) : (List.range N).countP p = S.card := by
  have hfilter : S = (Finset.range N).filter fun n => p n = true := by
    ext n
    rw [Finset.mem_filter, Finset.mem_range, hS]
  simp only [hfilter, ← Nat.count_eq_card_filter_range, Nat.count, Bool.decide_eq_true]

theorem countP_range_isNone {α : Type} (f : Nat → Option α) (N : Nat) :
    (List.range N).countP (fun n => (f n).isNone) =
      N - (List.range N).countP (fun n => (f n).isSome) := by
  have hall := List.length_eq_countP_add_countP (fun n => (f n).isSome) (l := List.range N)
  simp only [List.length_range, Bool.not_eq_true, Option.isSome_eq_false_iff, Bool.decide_eq_true] at hall
  omega

/-- R64: 258 of the 65536 words are legal. -/
theorem countP_legal :
    (List.range 65536).countP (fun n => (decodeTableWord 16 n).isSome) = 258 :=
  (countP_range_eq_card mem_legalNumbers_iff).trans card_legalNumbers

theorem countP_illegal :
    (List.range 65536).countP (fun n => (decodeTableWord 16 n).isNone) = 65278 := by
  rw [countP_range_isNone, countP_legal]

/-- Settles O3: the decoder rejects what fails the checks on the fields, and what it accepts are the 258
numbers of `legalNumbers`. -/
theorem illegalWordsAreTheReservedOnes : Obligations.IllegalWordsAreTheReservedOnes := by
  unfold Obligations.IllegalWordsAreTheReservedOnes
  refine ⟨fun w => ?_, countP_legal, countP_illegal⟩
  rw [decode_isError_iff, decode_isOk_iff_wellFormed, RawCmd.wellFormed_iff]
  simp only [RawCmd.ofWord]
  generalize w.extractLsb' 8 8 = op
  generalize w.extractLsb' 0 8 = imm8
  bv_omega

/-- Settles O2: a legal word is some command's encoding, and the decoder is run on the others. -/
theorem tabledWordsDecodeAsWritten : Obligations.TabledWordsDecodeAsWritten := by
  unfold Obligations.TabledWordsDecodeAsWritten
  have habsorb (b : Byte) : decode (0x02#8 ++ b) = .ok (.absorb b) :=
    encode_absorb b ▸ decode_encode (.absorb b)
  refine ⟨decode_encode .init, habsorb _, habsorb _, habsorb _, habsorb _, decode_encode .final, ?_⟩
  decide

/-! ### The assembler lines and the pseudo-commands (R67 to R69, R124) -/

theorem asciiByte_of_lt {c : Char} (h : c.toNat < 128) : asciiByte c = some (BitVec.ofNat 8 c.toNat) :=
  if_pos h

theorem asciiByte_of_ge {c : Char} (h : 128 ≤ c.toNat) : asciiByte c = none :=
  if_neg (Nat.not_lt.2 h)

theorem mapM_asciiByte_of_ascii {text : List Char} (h : ∀ c ∈ text, c.toNat < 128) :
    text.mapM asciiByte = some (text.map fun c => BitVec.ofNat 8 c.toNat) := by
  induction text with
  | nil => rfl
  | cons c text ih =>
    obtain ⟨hc, htext⟩ := List.forall_mem_cons.1 h
    simp [asciiByte_of_lt hc, ih htext]

/-- One character without a byte leaves the whole text without bytes (log 14). -/
theorem mapM_asciiByte_of_not_ascii {text : List Char} {c : Char} (hc : c ∈ text)
    (h : 128 ≤ c.toNat) : text.mapM asciiByte = none := by
  induction hc with
  | head text => simp [asciiByte_of_ge h]
  | tail d _ ih => simp [ih]

theorem updateWords_eq (m : List Byte) : updateWords m = m.map fun b => (0x02#8 ++ b : CmdWord) :=
  List.map_congr_left fun b _ => encode_absorb b

theorem updateWords_flatten (chunks : List (List Byte)) :
    (chunks.map updateWords).flatten = updateWords chunks.flatten :=
  List.map_flatten.symm

theorem length_hashWords (m : List Byte) : (hashWords m).length = m.length + 2 := by
  simp [hashWords, updateWords]

theorem assembleAll_cons (l : AsmLine) (ls : List AsmLine) : assembleAll (l :: ls) =
    (assemble l).bind fun ws => (assembleAll ls).map fun vs => ws ++ vs := by
  simp only [assembleAll, List.mapM_cons]
  cases assemble l with
  | none => rfl
  | some ws => cases ls.mapM assemble <;> rfl

theorem assembleAll_map_absorb (m : List Byte) :
    assembleAll (m.map .absorb) = some (updateWords m) := by
  induction m with
  | nil => rfl
  | cons b m ih =>
    rw [List.map_cons, assembleAll_cons, ih]
    rfl

theorem assembleAll_init_update_final (m : List Byte) :
    assembleAll [.init, .update m, .final] = some (hashWords m) := by
  simp only [assembleAll_cons]
  rfl

/-- Settles O37, line form by line form: each clause is the lemma about its line, text or list of lines. -/
theorem pseudoCommandsExpand : Obligations.PseudoCommandsExpand := by
  unfold Obligations.PseudoCommandsExpand
  refine ⟨⟨rfl, fun b => ?_, fun c hc => ?_, rfl, fun _ => rfl⟩,
    fun m => ⟨updateWords_eq m, rfl, assembleAll_map_absorb m⟩,
    fun m => ⟨?_, length_hashWords m, rfl, assembleAll_init_update_final m⟩,
    fun text htext => ?_, ⟨fun c hc => ?_, ?_⟩, ⟨rfl, assembleAll_cons⟩, updateWords_flatten⟩
  · rw [assemble, encode_absorb]
  · rw [assemble, asciiByte_of_lt hc, Option.map_some, encode_absorb]
  · rw [hashWords, updateWords_eq]
    rfl
  · rw [assemble, assemble, mapM_asciiByte_of_ascii htext]
    exact ⟨rfl, rfl⟩
  · rw [assemble, asciiByte_of_ge hc, Option.map_none]
  · rintro text ⟨c, hmem, hc⟩
    rw [assemble, assemble, mapM_asciiByte_of_not_ascii hmem hc]
    exact ⟨rfl, rfl⟩

end Sys2Proof.Machine

namespace Sys2Proof.Machine

open Sys2Proof

/-! ### INIT clears the whole buffer and keeps only the fault record and the host's side (R80, R81) -/

/-- An offset outside the list holds no value (R34). -/
theorem Memory.read_eq_none_of_unlisted {m : Memory} {a : Nat} (h : ∀ c ∈ m, c.1 ≠ a) :
    m.read a = none := by
  induction m with
  | nil => rfl
  | cons d rest ih =>
    obtain ⟨hd, hrest⟩ := List.forall_mem_cons.1 h
    rw [Memory.read, if_neg hd, ih hrest]

/-- In canonical form no offset from 64 up holds a value (R40). -/
theorem Memory.read_eq_none_of_wf {m : Memory} (h : m.wf = true) {a : Nat} (ha : 64 ≤ a) :
    m.read a = none :=
  Memory.read_eq_none_of_unlisted fun c hc => by
    have hlt : c.1 < 64 := ((Memory.wf_iff m).1 h).2 c hc
    omega

theorem Memory.read_zeroFill_all (m : Memory) (a : Nat) :
    (m.zeroFill 0 64).read a = if a < 64 then some 0x00#8 else m.read a := by
  simp only [Memory.read_zeroFill, Nat.zero_le, true_and, and_self]

/-- Two canonical buffers differ at offsets below 64 only, and INIT's zero fill writes all of those. -/
theorem Memory.zeroFill_all_eq {m m' : Memory} (h : m.wf = true) (h' : m'.wf = true) :
    m.zeroFill 0 64 = m'.zeroFill 0 64 := by
  refine Memory.ext_of_wf (Memory.wf_zeroFill h 0 64) (Memory.wf_zeroFill h' 0 64) fun a => ?_
  rw [Memory.read_zeroFill_all, Memory.read_zeroFill_all]
  split
  · rfl
  · next ha =>
    rw [Memory.read_eq_none_of_wf h (not_lt.1 ha), Memory.read_eq_none_of_wf h' (not_lt.1 ha)]

/-- All that INIT's state takes from the old one: BUF outside the fill, the fault record and the host's side. -/
theorem State.loadFresh_eq (s : State) (cfg : Config) :
    s.loadFresh cfg = ⟨cfg.iv, s.buf.zeroFill 0 64, 0, .ready, s.err, s.errcode, s.errcmd, s.cp, s.inputs⟩ :=
  rfl

/-- Settles O8: the answer is `State.loadFresh`, each of whose fields has its law; BUF is read through
`Memory.read_zeroFill_all`. -/
theorem initLoadsTheFreshState : Obligations.InitLoadsTheFreshState := by
  unfold Obligations.InitLoadsTheFreshState
  intro s he
  exact ⟨s.loadFresh Config.engine, exec_init_of_clear he, rfl, rfl, rfl,
    Memory.read_zeroFill_all s.buf, he, rfl, rfl, rfl, rfl⟩

/-- Settles O9: of what `State.loadFresh_eq` lists, the buffers agree by `Memory.zeroFill_all_eq` and the rest
by hypothesis. -/
theorem initKeepsNothingOfTheOldHash : Obligations.InitKeepsNothingOfTheOldHash := by
  unfold Obligations.InitKeepsNothingOfTheOldHash
  intro s t hs ht hwfs hwft hcode hcmd hcp hinputs
  rw [exec_init_of_clear hs, exec_init_of_clear ht, State.loadFresh_eq, State.loadFresh_eq,
    Memory.zeroFill_all_eq hwfs hwft, hs, ht, hcode, hcmd, hcp, hinputs]

end Sys2Proof.Machine

namespace Sys2Proof.Machine

open Sys2Proof

/-! ### Rotation bit by bit (R90) -/

theorem rotl_zero (x : Word) : rotl x 0 = x := rfl

/-- Bit `i` of a rotation is the bit `n` places below `i`, round the end of the word. -/
theorem getLsbD_rotl (x : Word) (n i : Fin 32) : (rotl x n).getLsbD i.val = x.getLsbD (i - n).val := by
  rw [rotl]
  split
  · next hn => rw [hn, sub_zero]
  · next hn =>
    have hpos : 0 < n.val := Fin.pos_of_ne_zero hn
    rw [BitVec.getLsbD_or, BitVec.getLsbD_shiftLeft, BitVec.getLsbD_ushiftRight, Fin.val_sub]
    by_cases hi : i.val < n.val
    · have hmod : (32 - n.val + i.val) % 32 = 32 - n.val + i.val := Nat.mod_eq_of_lt (by omega)
      simp [hi, hmod]
    · have hmod : (32 - n.val + i.val) % 32 = i.val - n.val := by omega
      have hout : x.getLsbD (32 - n.val + i.val) = false := BitVec.getLsbD_of_ge _ _ (by omega)
      simp [hi, hmod, hout]

/-- Equality of words, bit by bit, with the bit numbers in the type that `getLsbD_rotl` subtracts in. -/
theorem word_ext {x y : Word} (h : ∀ i : Fin 32, x.getLsbD i.val = y.getLsbD i.val) : x = y :=
  BitVec.eq_of_getLsbD_eq fun i hi => h ⟨i, hi⟩

theorem rotl_xor (x y : Word) (n : Fin 32) : rotl (x ^^^ y) n = rotl x n ^^^ rotl y n :=
  word_ext fun i => by simp only [getLsbD_rotl, BitVec.getLsbD_xor]

theorem rotl_rotl (x : Word) (m n : Fin 32) : rotl (rotl x m) n = rotl x (m + n) :=
  word_ext fun i => by rw [getLsbD_rotl, getLsbD_rotl, getLsbD_rotl, sub_sub, add_comm n m]

/-- Settles O27: bit `k + n` of the rotation comes from bit `k + n - n`. -/
theorem rotlMovesEveryBit : Obligations.RotlMovesEveryBit := by
  unfold Obligations.RotlMovesEveryBit
  refine fun x n => ⟨fun k => ?_, rotl_zero x⟩
  rw [← Fin.val_add, getLsbD_rotl, add_sub_cancel_right]

/-! ### P0 has order 4 (R92) -/

/-- The shape of P0, with its two amounts left open. -/
def xorRotl (m n : Fin 32) (x : Word) : Word := x ^^^ rotl x m ^^^ rotl x n

theorem p0_eq_xorRotl (x : Word) : p0 x = xorRotl 9 17 x := rfl

/-- Applying it twice doubles both amounts: the mixed terms cancel. -/
theorem xorRotl_xorRotl (m n : Fin 32) (x : Word) :
    xorRotl m n (xorRotl m n x) = xorRotl (m + m) (n + n) x := by
  simp only [xorRotl, rotl_xor, rotl_rotl, add_comm n m]
  calc x ^^^ rotl x m ^^^ rotl x n ^^^ (rotl x m ^^^ rotl x (m + m) ^^^ rotl x (m + n)) ^^^
        (rotl x n ^^^ rotl x (m + n) ^^^ rotl x (n + n))
      _ = x ^^^ rotl x (m + m) ^^^ rotl x (n + n) ^^^ (rotl x m ^^^ rotl x m) ^^^
          (rotl x n ^^^ rotl x n) ^^^ (rotl x (m + n) ^^^ rotl x (m + n)) := by ac_rfl
      _ = x ^^^ rotl x (m + m) ^^^ rotl x (n + n) := by simp only [BitVec.xor_self, BitVec.xor_zero]

theorem xorRotl_self (n : Fin 32) (x : Word) : xorRotl n n x = x := by
  rw [xorRotl, BitVec.xor_assoc, BitVec.xor_self, BitVec.xor_zero]

/-- Doubling the amounts 9 and 17 twice, modulo 32, makes both 4. -/
theorem p0_p0_p0_p0 (x : Word) : p0 (p0 (p0 (p0 x))) = x := by
  simp only [p0_eq_xorRotl]
  calc xorRotl 9 17 (xorRotl 9 17 (xorRotl 9 17 (xorRotl 9 17 x)))
      _ = xorRotl 18 2 (xorRotl 18 2 x) := by rw [xorRotl_xorRotl, xorRotl_xorRotl]; rfl
      _ = xorRotl 4 4 x := xorRotl_xorRotl 18 2 x
      _ = x := xorRotl_self 4 x

theorem p0_bijective : Function.Bijective p0 :=
  Function.bijective_iff_has_inverse.2 ⟨fun x => p0 (p0 (p0 x)), p0_p0_p0_p0, p0_p0_p0_p0⟩

/-- Settles O28: the inverse of P0 is P0 three times. -/
theorem permutationP0 : Obligations.PermutationP0 := by
  unfold Obligations.PermutationP0
  exact ⟨fun _ => rfl, p0_bijective, by decide⟩

/-! ### The round constants and one round (R94, R96, R97, R102, R104) -/

theorem roundConstant_of_lt {j : Nat} (h : j < 16) : roundConstant j = 0x79cc4519#32 := if_pos h

theorem roundConstant_of_ge {j : Nat} (h : 16 ≤ j) : roundConstant j = 0x7a879d8a#32 :=
  if_neg (not_lt.2 h)

/-- From round 16 on the constants repeat after 32 rounds: `T` stays and so does the amount. -/
theorem rotatedConstant_add_thirtyTwo {j : Nat} (h : 16 ≤ j) :
    rotatedConstant (j + 32) = rotatedConstant j := by
  have hamount : Fin.ofNat 32 (j + 32) = Fin.ofNat 32 j := Fin.ext (Nat.add_mod_right j 32)
  rw [rotatedConstant, rotatedConstant, hamount, roundConstant_of_ge h,
    roundConstant_of_ge (Nat.le_add_right_of_le h)]

/-- Settles O29: the constants are computed one by one, their repetition is proved for every round from 16 on. -/
theorem rotatedConstantsAsTabled : Obligations.RotatedConstantsAsTabled := by
  unfold Obligations.RotatedConstantsAsTabled
  exact ⟨fun _ => rfl, by decide, fun _ hge _ => (rotatedConstant_add_thirtyTwo hge).symm⟩

theorem ff_of_lt (x y z : Word) {j : Nat} (h : j < 16) : ff x y z j = x ^^^ y ^^^ z := if_pos h

theorem gg_of_lt (x y z : Word) {j : Nat} (h : j < 16) : gg x y z j = x ^^^ y ^^^ z := if_pos h

theorem ff_of_ge (x y z : Word) {j : Nat} (h : 16 ≤ j) :
    ff x y z j = (x &&& y) ||| (x &&& z) ||| (y &&& z) := if_neg (not_lt.2 h)

theorem gg_of_ge (x y z : Word) {j : Nat} (h : 16 ≤ j) :
    gg x y z j = (x &&& y) ||| (~~~x &&& z) := if_neg (not_lt.2 h)

theorem getLsbD_xor_three (x y z : Word) (k : Nat) : (x ^^^ y ^^^ z).getLsbD k =
    (x.getLsbD k ^^ (y.getLsbD k ^^ z.getLsbD k)) := by
  rw [BitVec.getLsbD_xor, BitVec.getLsbD_xor, Bool.xor_assoc]

theorem majority_iff_two_le (a b c : Bool) :
    ((a && b) || (a && c) || (b && c)) = true ↔ 2 ≤ a.toNat + b.toNat + c.toNat := by
  revert a b c; decide

theorem choice_eq_ite (a b c : Bool) : ((a && b) || (!a && c)) = if a then b else c := by
  revert a b c; decide

/-- R96 from round 16 on: the majority of three bits. -/
theorem getLsbD_ff_of_ge (x y z : Word) {j : Nat} (h : 16 ≤ j) (k : Nat) :
    (ff x y z j).getLsbD k = true ↔
      2 ≤ (x.getLsbD k).toNat + (y.getLsbD k).toNat + (z.getLsbD k).toNat := by
  rw [ff_of_ge x y z h, ← majority_iff_two_le]
  simp only [BitVec.getLsbD_or, BitVec.getLsbD_and]

/-- R97 from round 16 on: the first word's bit chooses between the other two. -/
theorem getLsbD_gg_of_ge (x y z : Word) {j : Nat} (h : 16 ≤ j) {k : Nat} (hk : k < 32) :
    (gg x y z j).getLsbD k = if x.getLsbD k then y.getLsbD k else z.getLsbD k := by
  rw [gg_of_ge x y z h, ← choice_eq_ite]
  simp only [BitVec.getLsbD_or, BitVec.getLsbD_and, BitVec.getLsbD_not, hk, decide_true, Bool.true_and]

/-- Settles O31: `round` is its own snapshot, and FF and GG split at round 16. -/
theorem roundWritesFromOneSnapshot : Obligations.RoundWritesFromOneSnapshot := by
  unfold Obligations.RoundWritesFromOneSnapshot
  refine ⟨fun _ _ _ _ _ _ _ _ _ _ _ => rfl, fun x y z j k hj => ?_, fun x y z j k hj =>
    ⟨getLsbD_ff_of_ge x y z hj k, getLsbD_gg_of_ge x y z hj k.isLt⟩⟩
  rw [ff_of_lt x y z hj, gg_of_lt x y z hj]
  exact ⟨getLsbD_xor_three x y z k, getLsbD_xor_three x y z k⟩

/-! ### The rounds in order (R105) and the whole of COMPRESS (R107) -/

/-- The working variables after the first `n` rounds. -/
def mixPrefix (w w1 : List Word) (r : WorkVars) (n : Nat) : WorkVars :=
  (List.range n).foldl (fun r j => round r j (scheduleWord w j) (scheduleWord w1 j)) r

theorem mix_eq_mixPrefix (w w1 : List Word) (r : WorkVars) : mix w w1 r = mixPrefix w w1 r 64 := rfl

theorem mixPrefix_zero (w w1 : List Word) (r : WorkVars) : mixPrefix w w1 r 0 = r := rfl

theorem mixPrefix_succ (w w1 : List Word) (r : WorkVars) (n : Nat) : mixPrefix w w1 r (n + 1) =
    round (mixPrefix w w1 r n) n (scheduleWord w n) (scheduleWord w1 n) := by
  rw [mixPrefix, List.range_succ, List.foldl_append]
  rfl

/-- COMPRESS writes V only, from V and the 64 bytes of BUF (R107). -/
theorem State.compress_eq (s : State) : s.compress =
    { s with v := cf s.v (Vector.ofFn fun k : Fin 64 => s.buf.byte k) } := by
  rw [State.compress, Memory.block_eq]
  rfl

/-- Settles O38: `schedule`, `derivedWords` and `mixPrefix` are the words and variables asked for. -/
theorem compressIsSixtyFourRoundsAndXor : Obligations.CompressIsSixtyFourRoundsAndXor := by
  unfold Obligations.CompressIsSixtyFourRoundsAndXor
  refine ⟨fun v b => ⟨scheduleWord (schedule b), scheduleWord (derivedWords (schedule b)),
      mixPrefix (schedule b) (derivedWords (schedule b)) (loadVars v), ?_, ?_, ?_, rfl, ?_, ?_⟩,
    State.compress_eq, by decide +kernel, by decide +kernel, by decide +kernel⟩
  · intro i
    rw [scheduleWord_schedule_of_block, blockWord]
  · intro i hge hle
    rw [scheduleWord_schedule_of_expanded b hge (by omega), expandedWord]
  · intro i hi
    exact scheduleWord_derivedWords _ (by omega)
  · intro j _
    exact ⟨_, _, _, _, rfl, rfl, rfl, rfl, mixPrefix_succ _ _ _ j⟩
  · rw [cf_eq, mix_eq_mixPrefix, combine]

end Sys2Proof.Machine

namespace Sys2Proof.Machine

open Sys2Proof

/-! ### ABSORB: the byte stored, counted and compressed (R120 to R122) -/

theorem State.fill_val (s : State) : s.fill.val = s.bitcnt.toNat / 8 % 64 :=
  fillOf_val s.bitcnt

theorem Memory.byte_write (m : Memory) (a k : Offset) (b : Byte) :
    (m.write a b).byte k = if k.val = a.val then b else m.byte k := by
  rw [Memory.byte, Memory.read_write]
  split <;> rfl

theorem State.absorbByte_v_of_ne {s : State} (h : s.fill ≠ 63) (b : Byte) : (s.absorbByte b).v = s.v := by
  rw [State.absorbByte_v, if_neg h]

theorem State.absorbByte_v_of_eq {s : State} (h : s.fill = 63) (b : Byte) :
    (s.absorbByte b).v = cf s.v (s.buf.write s.fill b).block := by
  rw [State.absorbByte_v, if_pos h]

/-- Settles O10: the answer is `State.absorbByte`, each of whose fields has its law; V is read on each side of
offset 63. -/
theorem absorbStoresCountsAndCompresses : Obligations.AbsorbStoresCountsAndCompresses := by
  unfold Obligations.AbsorbStoresCountsAndCompresses
  intro s b he hp
  simp only [← State.fill_val]
  refine ⟨s.absorbByte b, exec_absorb_of_ready he hp b, fun a => ?_, ?_, fun hne => ?_, fun h63 => ?_,
    (s.absorbByte_phase b).trans hp, (s.absorbByte_err b).trans he, s.absorbByte_errcode b,
    s.absorbByte_errcmd b, s.absorbByte_cp b, s.absorbByte_inputs b⟩
  · rw [State.absorbByte_buf, Memory.read_write]
  · rw [State.absorbByte_bitcnt, toNat_add_eight]
  · exact State.absorbByte_v_of_ne (fun h => hne (congrArg Fin.val h)) b
  · rw [State.absorbByte_v_of_eq (Fin.ext h63), Memory.block_eq]
    simp only [Memory.byte_write, h63]

/-! ### Commands out of phase (R125, R141, R164) -/

/-- Settles O13: outside READY `exec_of_not_ready` gives the answer; INIT has no case that records a fault. -/
theorem misuseRaisesBadPhase : Obligations.MisuseRaisesBadPhase := by
  unfold Obligations.MisuseRaisesBadPhase
  refine ⟨fun s b he hp => ?_, fun s he hp => exec_of_not_ready he nofun hp, fun s t h => ?_⟩
  · rw [← encode_absorb]
    exact exec_of_not_ready he nofun hp
  · cases exec_inv h with
    | discarded => exact ⟨rfl, rfl, rfl⟩
    | badPhase _ hi => exact absurd rfl hi
    | init => exact ⟨rfl, rfl, rfl⟩
    | absorb b _ hi => cases hi
    | final _ hi => cases hi

/-! ### Whole blocks of a byte string, and the bytes after them (R123) -/

/-- The bytes after the last whole block of a byte string, what `blocksOf` leaves out. -/
def tailOf (bytes : List Byte) : List Byte :=
  bytes.drop (64 * (bytes.length / 64))

theorem blocksOf_of_short {bytes : List Byte} (h : bytes.length < 64) : blocksOf bytes = [] := by
  rw [blocksOf, Nat.div_eq_of_lt h]
  rfl

theorem tailOf_of_short {bytes : List Byte} (h : bytes.length < 64) : tailOf bytes = bytes := by
  rw [tailOf, Nat.div_eq_of_lt h]
  rfl

theorem length_block_append_div (blk : Block) (bytes : List Byte) :
    (blk.toList ++ bytes).length / 64 = bytes.length / 64 + 1 := by
  rw [List.length_append, Vector.length_toList, Nat.add_div_left _ (by decide)]

/-- A block in front of a byte string is its first block. -/
theorem blocksOf_block_append (blk : Block) (bytes : List Byte) :
    blocksOf (blk.toList ++ bytes) = blk :: blocksOf bytes := by
  rw [blocksOf, length_block_append_div, List.range_succ_eq_map, List.map_cons, List.map_map, blocksOf]
  refine congrArg₂ List.cons (Vector.ext fun k hk => ?_)
    (List.map_congr_left fun t _ => Vector.ext fun k hk => ?_)
  · rw [Vector.getElem_ofFn, List.getD_append _ _ _ _ (by simpa using hk)]
    simp [hk]
  · simp only [Function.comp_apply, Vector.getElem_ofFn]
    rw [List.getD_append_right _ _ _ _ (by rw [Vector.length_toList]; omega), Vector.length_toList,
      show 64 * t.succ + k - 64 = 64 * t + k by omega]

theorem tailOf_block_append (blk : Block) (bytes : List Byte) :
    tailOf (blk.toList ++ bytes) = tailOf bytes := by
  rw [tailOf, length_block_append_div, tailOf, Nat.mul_add, Nat.add_comm, ← List.drop_drop,
    List.drop_left' (by simp)]

/-! ### The valid bytes of BUF under ABSORB (R23, R120) -/

@[simp] theorem State.length_validBytes (s : State) : s.validBytes.length = s.fill.val := by
  rw [State.validBytes, List.length_take, Vector.length_toList, Nat.min_eq_left s.fill.isLt.le]

theorem Memory.block_write (m : Memory) (a : Offset) (b : Byte) :
    (m.write a b).block = m.block.set a.val b := by
  refine Vector.ext fun k hk => ?_
  simp only [Memory.getElem_block, Memory.byte_write, Vector.getElem_set, eq_comm (a := k)]

/-- The byte written at an offset stands after the bytes below it. -/
theorem Memory.take_block_write (m : Memory) (a : Offset) (b : Byte) :
    (m.write a b).block.toList.take (a.val + 1) = m.block.toList.take a.val ++ [b] := by
  rw [Memory.block_write, Vector.toList_set, List.take_add_one, List.take_set_of_le le_rfl,
    List.getElem?_set_self (by simp)]
  rfl

/-- An ABSORB either adds its byte to the valid ones, or completes a block with it, which goes into V and
leaves no valid byte (R121). -/
theorem State.absorbByte_cases (s : State) (b : Byte) :
    ((s.absorbByte b).v = s.v ∧ (s.absorbByte b).validBytes = s.validBytes ++ [b]) ∨
    ∃ blk : Block, blk.toList = s.validBytes ++ [b] ∧
      (s.absorbByte b).v = cf s.v blk ∧ (s.absorbByte b).validBytes = [] := by
  have hstored : (s.buf.write s.fill b).block.toList.take (s.fill.val + 1) = s.validBytes ++ [b] :=
    Memory.take_block_write s.buf s.fill b
  by_cases h : s.fill = 63
  · refine .inr ⟨(s.buf.write s.fill b).block, ?_, State.absorbByte_v_of_eq h b, ?_⟩
    · rw [← hstored, List.take_of_length_le]
      rw [Vector.length_toList, h]
      decide
    · rw [State.validBytes, State.absorbByte_fill_val, h]
      rfl
  · refine .inl ⟨State.absorbByte_v_of_ne h b, ?_⟩
    have hne : s.fill.val ≠ 63 := fun h' => h (Fin.ext h')
    rw [State.validBytes, State.absorbByte_fill_val, Nat.mod_eq_of_lt (by omega), State.absorbByte_buf,
      hstored]

/-! ### The closed form of UPDATE (R123), one byte at a time -/

/-- The body of UPDATE: one ABSORB after the other (R68). -/
def State.absorbAll (s : State) (m : List Byte) : State :=
  m.foldl State.absorbByte s

theorem State.absorbAll_cons (s : State) (b : Byte) (m : List Byte) :
    s.absorbAll (b :: m) = (s.absorbByte b).absorbAll m := rfl

/-- What one ABSORB keeps, UPDATE keeps. -/
theorem State.absorbAll_keeps {α : Type} {f : State → α} (h : ∀ s b, f (s.absorbByte b) = f s)
    (s : State) (m : List Byte) : f (s.absorbAll m) = f s := by
  induction m generalizing s with
  | nil => rfl
  | cons b m ih => exact (ih (s.absorbByte b)).trans (h s b)

@[simp] theorem length_updateWords (m : List Byte) : (updateWords m).length = m.length :=
  List.length_map _

theorem acceptAll_updateWords (m : List Byte) {s : State} (he : s.err = false) (hp : s.phase = .ready) :
    acceptAll (updateWords m) s = .next (s.absorbAll m) := by
  induction m generalizing s with
  | nil => rfl
  | cons b m ih =>
    have hfirst : acceptCommand (encode (.absorb b)) s = .next (s.absorbByte b) :=
      (acceptCommand_of_ok (decode_encode _) s).trans (exec_absorb_of_ready he hp b)
    exact (acceptAll_cons hfirst _).trans (ih (by simpa using he) (by simpa using hp))

/-- BITCNT after UPDATE, the wrap included (R122). -/
theorem State.absorbAll_bitcnt_toNat (s : State) (m : List Byte) :
    (s.absorbAll m).bitcnt.toNat = (s.bitcnt.toNat + 8 * m.length) % 2 ^ 64 := by
  induction m generalizing s with
  | nil => exact (Nat.mod_eq_of_lt s.bitcnt.isLt).symm
  | cons b m ih =>
    rw [State.absorbAll_cons, ih, State.absorbByte_bitcnt, toNat_add_eight, List.length_cons]
    omega

/-- The fill offset after UPDATE: 2^64 is a multiple of 512, so the wrap of BITCNT does not show in it. -/
theorem State.absorbAll_fill_val (s : State) (m : List Byte) :
    (s.absorbAll m).fill.val = (s.fill.val + m.length) % 64 := by
  rw [State.fill_val, State.fill_val, State.absorbAll_bitcnt_toNat]
  omega

/-- V and the valid bytes after UPDATE. Of the bytes still to be split into blocks, the valid ones and those to
come, an ABSORB takes away the first block when it compresses one, and nothing otherwise. -/
theorem State.absorbAll_v_validBytes (s : State) (m : List Byte) :
    (s.absorbAll m).v = chainOver s.v (blocksOf (s.validBytes ++ m)) ∧
    (s.absorbAll m).validBytes = tailOf (s.validBytes ++ m) := by
  induction m generalizing s with
  | nil =>
    have hshort : s.validBytes.length < 64 := by simp
    rw [List.append_nil, blocksOf_of_short hshort, tailOf_of_short hshort]
    exact ⟨rfl, rfl⟩
  | cons b m ih =>
    obtain ⟨ihv, ihbytes⟩ := ih (s.absorbByte b)
    rw [State.absorbAll_cons, ihv, ihbytes, List.append_cons]
    obtain ⟨hv, hbytes⟩ | ⟨blk, hblk, hv, hbytes⟩ := s.absorbByte_cases b
    · rw [hv, hbytes]
      exact ⟨rfl, rfl⟩
    · rw [hv, hbytes, ← hblk, blocksOf_block_append, tailOf_block_append]
      exact ⟨rfl, rfl⟩

/-- Settles O33: the steps run the offered words by O5, which leave `State.absorbAll`, and each clause is a
law of it. -/
theorem updateInClosedForm : Obligations.UpdateInClosedForm := by
  unfold Obligations.UpdateInClosedForm
  intro s m rest he hp hin
  obtain ⟨t, ht, -, -, hsteps⟩ := stepsRunTheOfferedStream s (updateWords m) rest hin
  cases (acceptAll_updateWords m he hp).symm.trans ht
  rw [length_updateWords] at hsteps
  obtain ⟨hv, hbytes⟩ := s.absorbAll_v_validBytes m
  rw [tailOf, List.length_append, State.length_validBytes] at hbytes
  exact ⟨_, hsteps, hv, s.absorbAll_bitcnt_toNat m, s.absorbAll_fill_val m, hbytes,
    (State.absorbAll_keeps State.absorbByte_phase s m).trans hp,
    (State.absorbAll_keeps State.absorbByte_err s m).trans he,
    State.absorbAll_keeps State.absorbByte_errcode s m,
    State.absorbAll_keeps State.absorbByte_errcmd s m, rfl, rfl⟩

end Sys2Proof.Machine

namespace Sys2Proof.Machine

open Sys2Proof

/-! ### The terminator, the zeros and the length in the buffer (R132 to R135) -/

/-- Byte `k` of a 64-bit number, most significant first (R43). -/
theorem bigEndianByte_count (c : Count) (k : Fin 8) :
    bigEndianByte (n := 8) c k = c.extractLsb' (8 * (7 - k.val)) 8 := by
  rw [bigEndianByte, Nat.sub_right_comm]

/-- The length field is the last eight offsets of the block (R135). -/
theorem Memory.read_writeBE_length (m : Memory) (len : Count) (h : 56 + 8 ≤ 64) (a : Nat) :
    (m.writeBE 56 8 len h).read a =
      if 56 ≤ a ∧ a < 64 then some (len.extractLsb' (8 * (63 - a)) 8) else m.read a := by
  split
  · next ha =>
    obtain ⟨k, rfl⟩ := Nat.exists_eq_add_of_le ha.1
    have hk : k < 8 := by omega
    rw [Memory.read_writeBE_inside m 56 8 len h ⟨k, hk⟩, bigEndianByte_count, Nat.sub_add_eq]
  · next ha => exact Memory.read_writeBE_outside m 56 8 len h a (by omega)

/-- The terminator at `f`, and zeros after it to the end of the block (R132, R133). -/
theorem Memory.read_terminated (m : Memory) (f : Offset) (a : Nat) :
    ((m.write f 0x80#8).zeroFill (f.val + 1) 64).read a =
      if a < f.val then m.read a else if a = f.val then some 0x80#8
      else if a < 64 then some 0x00#8 else m.read a := by
  rw [Memory.read_zeroFill, Memory.read_write]
  rcases lt_trichotomy a f.val with hlt | heq | hgt
  · rw [if_neg (by omega), if_neg hlt.ne, if_pos hlt]
  · rw [if_neg (by omega), if_pos heq, if_neg heq.not_lt, if_pos heq]
  · rw [if_neg hgt.ne', if_neg hgt.not_gt, if_neg hgt.ne']
    exact if_congr (by omega) rfl rfl

theorem Memory.byte_terminated (m : Memory) (f k : Offset) :
    ((m.write f 0x80#8).zeroFill (f.val + 1) 64).byte k =
      if k.val < f.val then m.byte k else if k = f then 0x80#8 else 0x00#8 := by
  rw [Memory.byte, Memory.read_terminated, if_pos k.isLt]
  simp only [Fin.ext_iff]
  split
  · rfl
  · split <;> rfl

/-- The block that FINAL spills when the length no longer fits (R133). -/
theorem Memory.block_terminated (m : Memory) (f : Offset) :
    ((m.write f 0x80#8).zeroFill (f.val + 1) 64).block =
      Vector.ofFn fun k : Fin 64 => if k.val < f.val then m.byte k else if k = f then 0x80#8 else 0x00#8 := by
  simp only [Memory.block_eq, Memory.byte_terminated]

/-! ### FINAL on each side of fill offset 56 (R133) -/

theorem State.finalize_of_fill_le {s : State} (h : s.fill.val ≤ 55) : s.finalize =
    ((s.padTerminator s.fill).lengthBlock (s.fill.val + 1) s.bitcnt).setPhase .finalized := by
  rw [State.finalize, if_neg (by omega)]

theorem State.finalize_of_le_fill {s : State} (h : 56 ≤ s.fill.val) : s.finalize =
    (((s.padTerminator s.fill).spillBlock (s.fill.val + 1)).lengthBlock 0 s.bitcnt).setPhase .finalized := by
  rw [State.finalize, if_pos (by omega)]

/-- The buffer that the last block is compressed from (R134, R135). -/
theorem State.read_lengthBlock_buf (s : State) (idx : Nat) (len : Count) (a : Nat) :
    (s.lengthBlock idx len).buf.read a =
      if a < 56 then (if idx ≤ a then some 0x00#8 else s.buf.read a)
      else if a < 64 then some (len.extractLsb' (8 * (63 - a)) 8)
      else s.buf.read a := by
  rw [State.lengthBlock_buf, Memory.read_writeBE_length, Memory.read_zeroFill]
  by_cases h56 : a < 56
  · rw [if_neg (by omega), if_pos h56]
    exact if_congr (by omega) rfl rfl
  · simp only [h56, if_false, false_and, and_false, le_of_not_gt h56, true_and]

/-- The buffer that FINAL leaves (R138). A spilled block is overwritten whole; otherwise the bytes below the
fill offset stay. -/
theorem State.read_finalize_buf (s : State) (a : Nat) : s.finalize.buf.read a =
    if a < 56 then
      (if 56 ≤ s.fill.val then some 0x00#8
       else if a < s.fill.val then s.buf.read a
       else if a = s.fill.val then some 0x80#8 else some 0x00#8)
    else if a < 64 then some (s.bitcnt.extractLsb' (8 * (63 - a)) 8)
    else s.buf.read a := by
  by_cases hf : 56 ≤ s.fill.val
  · rw [State.finalize_of_le_fill hf, State.setPhase_buf, State.read_lengthBlock_buf, State.spillBlock_buf,
      State.padTerminator_buf, if_pos hf, if_pos a.zero_le]
    refine if_congr Iff.rfl rfl (ite_congr rfl (fun _ => rfl) fun hout => ?_)
    rw [Memory.read_terminated, if_neg (by omega), if_neg (by omega), if_neg hout]
  · rw [State.finalize_of_fill_le (by omega), State.setPhase_buf, State.read_lengthBlock_buf,
      State.padTerminator_buf, Memory.read_write, if_neg hf]
    refine ite_congr rfl (fun _ => ?_) fun _ => ite_congr rfl (fun _ => rfl) fun hout => if_neg (by omega)
    rcases lt_trichotomy a s.fill.val with hlt | heq | hgt
    · rw [if_neg (by omega), if_neg hlt.ne, if_pos hlt]
    · rw [if_neg (by omega), if_pos heq, if_neg heq.not_lt, if_pos heq]
    · rw [if_pos (Nat.succ_le_of_lt hgt), if_neg hgt.not_gt, if_neg hgt.ne']

/-- Settles O12: the answer is `State.finalize`, whose buffer is `State.read_finalize_buf`; V is read on each
side of fill offset 56. -/
theorem finalPadsAndCompresses : Obligations.FinalPadsAndCompresses := by
  unfold Obligations.FinalPadsAndCompresses
  intro s he hp
  refine ⟨s.finalize, exec_final_of_ready he hp, s.read_finalize_buf, fun hf => ?_, fun hf => ?_,
    s.finalize_phase, s.finalize_bitcnt, s.finalize_err.trans he, s.finalize_errcode, s.finalize_errcmd,
    s.finalize_cp, s.finalize_inputs⟩
  · rw [State.finalize_of_fill_le hf]
    rfl
  · rw [State.finalize_of_le_fill hf, ← Memory.block_terminated]
    rfl

/-! ### The padded message (R142) -/

theorem padZeros_le (n : Nat) : padZeros n ≤ 63 := by
  rw [padZeros]
  omega

/-- The zeros fill the last block up to its length field. -/
theorem length_add_padZeros (n : Nat) : n + 1 + padZeros n + 8 = 64 * ((n + 8) / 64 + 1) := by
  rw [padZeros]
  omega

theorem pad_eq (m : List Byte) : pad m = m ++ 0x80#8 ::
    (List.replicate (padZeros m.length) 0x00#8 ++ be64 (BitVec.ofNat 64 (8 * m.length))) := by
  simp only [pad, List.append_assoc, List.cons_append, List.nil_append]

theorem length_pad (m : List Byte) : (pad m).length = 64 * ((m.length + 8) / 64 + 1) := by
  rw [← length_add_padZeros]
  simp only [pad, be64, List.length_append, List.length_replicate, List.length_ofFn, List.length_singleton]

theorem getElem?_pad_length (m : List Byte) : (pad m)[m.length]? = some 0x80#8 := by
  rw [pad_eq, List.getElem?_append_right le_rfl, Nat.sub_self]
  rfl

theorem getElem?_pad_after (m : List Byte) (k : Nat) : (pad m)[m.length + 1 + k]? =
    (List.replicate (padZeros m.length) 0x00#8 ++ be64 (BitVec.ofNat 64 (8 * m.length)))[k]? := by
  rw [pad_eq, Nat.add_assoc, List.getElem?_append_right (Nat.le_add_right _ _), Nat.add_sub_cancel_left,
    Nat.add_comm 1, List.getElem?_cons_succ]

/-- Settles O32: the counts follow from `length_add_padZeros`, the bytes from the parts of `pad_eq`. -/
theorem paddedMessageIsWholeBlocks : Obligations.PaddedMessageIsWholeBlocks := by
  unfold Obligations.PaddedMessageIsWholeBlocks
  intro m
  have hle := padZeros_le m.length
  have hsum := length_add_padZeros m.length
  refine ⟨length_pad m, ?_, ?_, getElem?_pad_length m, hle, ?_, fun z hz => ?_, fun k hk => ?_, fun k => ?_⟩
  · rw [blocksOf, List.length_map, List.length_range, length_pad, Nat.mul_div_cancel_left _ (by decide)]
  · rw [pad_eq, List.take_left]
  · rw [hsum, Nat.mul_mod_right]
  · omega
  · rw [getElem?_pad_after, List.getElem?_append_left (by simpa using hk), List.getElem?_replicate_of_lt hk]
  · rw [Nat.add_assoc, getElem?_pad_after, List.getElem?_append_right (by simp), List.length_replicate,
      Nat.add_sub_cancel_left, be64, List.getElem?_ofFn, dif_pos k.isLt, bigEndianByte_count]

end Sys2Proof.Machine

namespace Sys2Proof.Machine

open Sys2Proof

/-! ### The buffer as a byte string, as FINAL fills it (R132 to R135) -/

/-- Bytes `l` stored from offset `a` on stand after the bytes below `a`, which are left alone. -/
theorem Memory.take_block_append {m m' : Memory} {a : Nat} {l : List Byte} (hle : a + l.length ≤ 64)
    (hbelow : ∀ k, k < a → m'.read k = m.read k)
    (hstored : ∀ k (h : k < l.length), m'.read (a + k) = some l[k]) :
    m'.block.toList.take (a + l.length) = m.block.toList.take a ++ l := by
  have hlen : (m.block.toList.take a).length = a := by
    rw [List.length_take, Vector.length_toList]
    omega
  have hlen' : (m'.block.toList.take (a + l.length)).length = a + l.length := by
    rw [List.length_take, Vector.length_toList]
    omega
  refine List.ext_getElem (by rw [hlen', List.length_append, hlen]) fun k hk _ => ?_
  rw [hlen'] at hk
  have hk64 : k < 64 := by omega
  rw [List.getElem_take, Vector.getElem_toList, Memory.getElem_block]
  by_cases hka : k < a
  · rw [List.getElem_append_left (hlen.symm ▸ hka), List.getElem_take, Vector.getElem_toList,
      Memory.getElem_block]
    exact Memory.byte_of_read_eq (hbelow k hka)
  · obtain ⟨j, rfl⟩ := Nat.exists_eq_add_of_le (not_lt.1 hka)
    have hj : j < l.length := Nat.lt_of_add_lt_add_left hk
    rw [List.getElem_append_right (hlen.symm ▸ Nat.le_add_right a j)]
    simp only [hlen, Nat.add_sub_cancel_left, Memory.byte, hstored j hj, Option.getD_some]

theorem Memory.take_block_zeroFill (m : Memory) {start stop : Nat} (h : start ≤ stop) (h64 : stop ≤ 64) :
    (m.zeroFill start stop).block.toList.take stop =
      m.block.toList.take start ++ List.replicate (stop - start) 0x00#8 := by
  have happend := Memory.take_block_append (m := m) (m' := m.zeroFill start stop) (a := start)
    (l := List.replicate (stop - start) 0x00#8) (by rw [List.length_replicate]; omega)
    (fun k hk => by rw [Memory.read_zeroFill, if_neg (by omega)])
    (fun k hk => by
      rw [List.length_replicate] at hk
      rw [Memory.read_zeroFill, if_pos (by omega), List.getElem_replicate])
  rwa [List.length_replicate, Nat.add_sub_cancel' h] at happend

theorem Memory.block_writeBE_length (m : Memory) (len : Count) (h : 56 + 8 ≤ 64) :
    (m.writeBE 56 8 len h).block.toList = m.block.toList.take 56 ++ be64 len := by
  have happend := Memory.take_block_append (m := m) (m' := m.writeBE 56 8 len h) (a := 56)
    (l := be64 len) (by simp [be64])
    (fun k hk => Memory.read_writeBE_outside m 56 8 len h k (.inl hk))
    (fun k hk => by
      rw [be64, List.length_ofFn] at hk
      simp only [be64, List.getElem_ofFn]
      exact Memory.read_writeBE_inside m 56 8 len h ⟨k, hk⟩)
  rwa [be64, List.length_ofFn, List.take_of_length_le (by simp)] at happend

/-- The block that FINAL spills: what stands below `idx`, and zeros (R133). -/
theorem State.block_spillBlock (s : State) {idx : Nat} (h : idx ≤ 64) :
    (s.spillBlock idx).buf.block.toList =
      s.buf.block.toList.take idx ++ List.replicate (64 - idx) 0x00#8 := by
  rw [State.spillBlock_buf, ← Memory.take_block_zeroFill s.buf h le_rfl, List.take_of_length_le (by simp)]

/-- The last block that FINAL compresses: what stands below `idx`, zeros, and the length (R134, R135). -/
theorem State.block_lengthBlock (s : State) {idx : Nat} (h : idx ≤ 56) (len : Count) :
    (s.lengthBlock idx len).buf.block.toList =
      s.buf.block.toList.take idx ++ (List.replicate (56 - idx) 0x00#8 ++ be64 len) := by
  rw [State.lengthBlock_buf, Memory.block_writeBE_length, Memory.take_block_zeroFill _ h (by decide),
    List.append_assoc]

/-! ### FINAL is the compression of the padding after the valid bytes (R130 to R136, R142) -/

/-- What `pad` puts after `n` bytes, with the length field `len` (R142). -/
def padding (n : Nat) (len : Count) : List Byte :=
  0x80#8 :: (List.replicate (padZeros n) 0x00#8 ++ be64 len)

theorem pad_eq_append_padding (m : List Byte) :
    pad m = m ++ padding m.length (BitVec.ofNat 64 (8 * m.length)) := pad_eq m

theorem padZeros_of_le {f : Nat} (h : f ≤ 55) : padZeros f = 55 - f := by
  rw [padZeros]
  omega

/-- From fill offset 56 on the zeros go past the end of the block, and up to offset 55 of the next. -/
theorem padZeros_of_ge {f : Nat} (h : 56 ≤ f) (h64 : f < 64) : padZeros f = 63 - f + 56 := by
  rw [padZeros]
  omega

/-- The padding depends on the fill offset and the length field only. -/
theorem padding_mod (n : Nat) (len : Count) : padding (n % 64) len = padding n len := by
  have hzeros : padZeros (n % 64) = padZeros n := by
    rw [padZeros, padZeros]
    omega
  rw [padding, hzeros, padding]

/-- A first block, split off a byte string, goes into the chaining value. -/
theorem chainOver_blocksOf_append {blk : Block} {front : List Byte} (h : blk.toList = front) (v : Chain)
    (bytes : List Byte) :
    chainOver v (blocksOf (front ++ bytes)) = chainOver (cf v blk) (blocksOf bytes) := by
  rw [← h, blocksOf_block_append]
  rfl

theorem chainOver_blocksOf_block {blk : Block} {bytes : List Byte} (h : blk.toList = bytes) (v : Chain) :
    chainOver v (blocksOf bytes) = cf v blk := by
  rw [← List.append_nil bytes, chainOver_blocksOf_append h, blocksOf_of_short (by decide)]
  rfl

/-- The buffer below the offset after the terminator (R132). -/
theorem State.take_block_padTerminator (s : State) :
    (s.padTerminator s.fill).buf.block.toList.take (s.fill.val + 1) = s.validBytes ++ [0x80#8] :=
  Memory.take_block_write s.buf s.fill 0x80#8

/-- FINAL compresses the valid bytes and their padding: one block when the length fits after the terminator,
two when it does not (R133). -/
theorem State.finalize_v_eq_chainOver (s : State) :
    s.finalize.v = chainOver s.v (blocksOf (s.validBytes ++ padding s.fill.val s.bitcnt)) := by
  by_cases hf : s.fill.val ≤ 55
  · rw [State.finalize_of_fill_le hf, State.setPhase_v, State.lengthBlock_v, State.padTerminator_v]
    refine (chainOver_blocksOf_block ?_ s.v).symm
    rw [State.block_lengthBlock _ (by omega), State.take_block_padTerminator, padding, padZeros_of_le hf,
      List.append_assoc, List.singleton_append, show 56 - (s.fill.val + 1) = 55 - s.fill.val by omega]
  · have hspill := (s.padTerminator s.fill).block_spillBlock (idx := s.fill.val + 1) (by omega)
    have hlast := ((s.padTerminator s.fill).spillBlock (s.fill.val + 1)).block_lengthBlock
      (Nat.zero_le 56) s.bitcnt
    rw [State.take_block_padTerminator] at hspill
    rw [List.take_zero, List.nil_append] at hlast
    have hsplit : s.validBytes ++ padding s.fill.val s.bitcnt =
        (s.validBytes ++ [0x80#8] ++ List.replicate (64 - (s.fill.val + 1)) 0x00#8) ++
          (List.replicate 56 0x00#8 ++ be64 s.bitcnt) := by
      rw [padding, padZeros_of_ge (by omega) s.fill.isLt, List.replicate_add,
        show 64 - (s.fill.val + 1) = 63 - s.fill.val by omega]
      simp only [List.append_assoc, List.cons_append, List.nil_append]
    rw [hsplit, chainOver_blocksOf_append hspill, chainOver_blocksOf_block hlast,
      State.finalize_of_le_fill (by omega)]
    rfl

/-! ### The hash of a message, from INIT on (R151) -/

theorem State.absorbAll_append (s : State) (m m' : List Byte) :
    s.absorbAll (m ++ m') = (s.absorbAll m).absorbAll m' :=
  List.foldl_append

/-- UPDATE with two byte strings folds the blocks of both, a block that spans the seam included. -/
theorem chainOver_absorbAll (s : State) (m m' : List Byte) :
    chainOver (s.absorbAll m).v (blocksOf ((s.absorbAll m).validBytes ++ m')) =
      chainOver s.v (blocksOf (s.validBytes ++ (m ++ m'))) := by
  rw [← (State.absorbAll_v_validBytes _ _).1, ← (State.absorbAll_v_validBytes _ _).1,
    State.absorbAll_append]

theorem State.loadFresh_validBytes (s : State) (cfg : Config) : (s.loadFresh cfg).validBytes = [] := by
  rw [State.validBytes, State.loadFresh_fill]
  rfl

/-- V after INIT and UPDATE (R123, R151). -/
theorem State.loadFresh_absorbAll_v (s : State) (cfg : Config) (m : List Byte) :
    ((s.loadFresh cfg).absorbAll m).v = chainOver cfg.iv (blocksOf m) := by
  rw [(State.absorbAll_v_validBytes _ _).1, State.loadFresh_validBytes, State.loadFresh_v, List.nil_append]

/-- BITCNT after INIT and UPDATE is the length that `pad` writes, for any length of message. -/
theorem State.loadFresh_absorbAll_bitcnt (s : State) (cfg : Config) (m : List Byte) :
    ((s.loadFresh cfg).absorbAll m).bitcnt = BitVec.ofNat 64 (8 * m.length) := by
  refine BitVec.eq_of_toNat_eq ?_
  rw [State.absorbAll_bitcnt_toNat, State.loadFresh_bitcnt, BitVec.toNat_ofNat]
  exact congrArg (· % 2 ^ 64) (Nat.zero_add _)

/-- V after the whole of HASH (R151): FINAL's padding follows the message as in `pad`. -/
theorem State.hash_v (s : State) (cfg : Config) (m : List Byte) :
    ((s.loadFresh cfg).absorbAll m).finalize.v = chainOver cfg.iv (blocksOf (pad m)) := by
  have hfill : ((s.loadFresh cfg).absorbAll m).fill.val = m.length % 64 := by
    rw [State.absorbAll_fill_val, State.loadFresh_fill, Fin.val_zero, Nat.zero_add]
  rw [State.finalize_v_eq_chainOver, hfill, padding_mod, State.loadFresh_absorbAll_bitcnt,
    chainOver_absorbAll, State.loadFresh_validBytes, List.nil_append, State.loadFresh_v,
    ← pad_eq_append_padding]

/-! ### The stream of HASH (R69, R150) -/

theorem acceptAll_append {ws : List CmdWord} {s t : State} (h : acceptAll ws s = .next t)
    (vs : List CmdWord) : acceptAll (ws ++ vs) s = acceptAll vs t := by
  induction ws generalizing s with
  | nil => cases h; rfl
  | cons w ws ih =>
    obtain ⟨u, hu, -⟩ := acceptCommand_sameOnHost w s 0 []
    rw [List.cons_append, acceptAll_cons hu]
    exact ih ((acceptAll_cons hu ws).symm.trans h)

theorem acceptCommand_init {s : State} (he : s.err = false) :
    acceptCommand 0x0100#16 s = .next (s.loadFresh Config.engine) :=
  (acceptCommand_of_ok (decode_encode .init) s).trans (exec_init_of_clear he)

theorem acceptCommand_final {s : State} (he : s.err = false) (hp : s.phase = .ready) :
    acceptCommand 0x0300#16 s = .next s.finalize :=
  (acceptCommand_of_ok (decode_encode .final) s).trans (exec_final_of_ready he hp)

theorem acceptAll_init_updateWords {s : State} (he : s.err = false) (m : List Byte) :
    acceptAll (0x0100#16 :: updateWords m) s = .next ((s.loadFresh Config.engine).absorbAll m) :=
  (acceptAll_cons (acceptCommand_init he) _).trans (acceptAll_updateWords m he rfl)

theorem acceptAll_hash {s : State} (he : s.err = false) (m : List Byte) :
    acceptAll (0x0100#16 :: updateWords m ++ [0x0300#16]) s =
      .next ((s.loadFresh Config.engine).absorbAll m).finalize := by
  have herr : ((s.loadFresh Config.engine).absorbAll m).err = false :=
    (State.absorbAll_keeps State.absorbByte_err _ m).trans he
  have hphase : ((s.loadFresh Config.engine).absorbAll m).phase = .ready :=
    State.absorbAll_keeps State.absorbByte_phase _ m
  rw [acceptAll_append (acceptAll_init_updateWords he m), acceptAll_cons (acceptCommand_final herr hphase)]
  rfl

/-- Settles O34: the stream is that of the chunks put together, `State.hash_v` is V after it, and the port and
the serialisation show the same bytes of V. -/
theorem hashStreamLeavesTheSM3Digest : Obligations.HashStreamLeavesTheSM3Digest := by
  unfold Obligations.HashStreamLeavesTheSM3Digest
  intro s chunks he _
  obtain ⟨-, hcount, -⟩ := paddedMessageIsWholeBlocks chunks.flatten
  have herr : ((s.loadFresh Config.engine).absorbAll chunks.flatten).finalize.err = false :=
    (State.finalize_err _).trans ((State.absorbAll_keeps State.absorbByte_err _ _).trans he)
  have hv := s.hash_v Config.engine chunks.flatten
  rw [updateWords_flatten]
  refine ⟨⟨_, acceptAll_hash he _, State.finalize_phase _, herr, hcount, hv, _,
    (State.digest_eq_some_iff _ _).2 ⟨⟨State.finalize_phase _, herr⟩, rfl⟩, fun k => ?_⟩,
    fun n _ => ⟨_, acceptAll_init_updateWords he _, s.loadFresh_absorbAll_v Config.engine _⟩⟩
  rw [digestByte_chainBits, sm3]
  simp only [hv]

/-! ### Runs from INIT show the same on the ports (R81, R152) -/

/-- INIT brings together states that agree on the fault record and the inputs, whatever else they hold. -/
theorem SameView.of_loadFresh {s t : State} (herr : s.err = t.err) (hcode : s.errcode = t.errcode)
    (hcmd : s.errcmd = t.errcmd) (hin : s.inputs = t.inputs) (cfg : Config) :
    SameView (s.loadFresh cfg) (t.loadFresh cfg) :=
  ⟨rfl, herr, hcode, hcmd, hin, fun _ => ⟨rfl, rfl, fun k hk => by simp at hk⟩, nofun⟩

/-- Any number of steps keeps two states in the same view. -/
theorem SameView.steps {s t : State} (h : SameView s t) (k : Nat) :
    SameViewResult (steps k s) (steps k t) := by
  induction k generalizing s t with
  | zero => exact ⟨s, t, rfl, rfl, h⟩
  | succ k ih =>
    obtain ⟨u, u', hu, hu', hview⟩ := h.step
    rw [steps_succ hu, steps_succ hu']
    exact ih hview

theorem step_init {s : State} {rest : List HostInput} (he : s.err = false)
    (hin : s.inputs = .command 0x0100#16 :: rest) :
    step s = .next ((s.accepted rest).loadFresh Config.engine) :=
  (step_command hin).trans (acceptCommand_init (s := s.accepted rest) he)

/-- Settles O36: after the step of INIT the two states are in the same view (`SameView.of_loadFresh`), the
further steps keep it, and the ports show nothing else. -/
theorem runsFromInitDependOnTheStreamAlone : Obligations.RunsFromInitDependOnTheStreamAlone := by
  unfold Obligations.RunsFromInitDependOnTheStreamAlone
  intro s t s' t' rest k hs ht hcode hcmd hins hint hs' ht'
  have hinit : SameView ((s.accepted rest).loadFresh Config.engine)
      ((t.accepted rest).loadFresh Config.engine) :=
    SameView.of_loadFresh (s := s.accepted rest) (t := t.accepted rest) (hs.trans ht.symm) hcode hcmd rfl
      Config.engine
  obtain ⟨u, u', hu, hu', hview⟩ := hinit.steps k
  cases hs'.symm.trans ((steps_succ (step_init hs hins) k).trans hu)
  cases ht'.symm.trans ((steps_succ (step_init ht hint) k).trans hu')
  exact hview.outputs_eq

end Sys2Proof.Machine

namespace Sys2Proof.Machine

open Sys2Proof

/-! ### A word that names no command (R163) -/

/-- The decoder accepts encodings only, so it rejects a word of none of the three forms. -/
theorem decode_error_of_ne {w : CmdWord} (hinit : w ≠ 0x0100#16) (habsorb : ∀ b : Byte, w ≠ 0x02#8 ++ b)
    (hfinal : w ≠ 0x0300#16) : ∃ e, decode w = .error e := by
  refine (decode_isError_iff w).2 fun ⟨i, hi⟩ => ?_
  have hw := eq_encode_of_decode hi
  cases i with
  | init => exact hinit hw
  | absorb b => exact habsorb b (hw.trans (encode_absorb b))
  | final => exact hfinal hw

/-- A command that leaves ILLEGAL_CMD on record found it there: what it records itself is BAD_PHASE. -/
theorem ExecCase.errcode_of_illegalCmd {i : Instr} {s t : State} (h : ExecCase i s t)
    (ht : t.errcode = .illegalCmd) : s.errcode = .illegalCmd := by
  cases h with
  | discarded _ => exact ht
  | badPhase _ _ _ => cases ht
  | init _ _ => exact ht
  | absorb b _ _ _ => rwa [State.absorbByte_errcode] at ht
  | final _ _ _ => rwa [State.finalize_errcode] at ht

/-- Settles O14: a word of none of the three forms is rejected by the decoder, and no branch of a legal command
records ILLEGAL_CMD. -/
theorem illegalWordRaisesIllegalCmd : Obligations.IllegalWordRaisesIllegalCmd := by
  unfold Obligations.IllegalWordRaisesIllegalCmd
  refine ⟨fun s w he hinit habsorb hfinal => ?_, fun i s t h ht => (exec_inv h).errcode_of_illegalCmd ht,
    State.reset.recordFault .illegalCmd 0x0000#16, ?_, rfl, rfl, rfl, rfl, rfl⟩
  · obtain ⟨e, hd⟩ := decode_error_of_ne hinit habsorb hfinal
    exact acceptCommand_of_illegal hd he
  · exact acceptCommand_of_illegal (e := .reservedOpcode 0x00) (by decide) rfl

/-! ### Fault entry (R166) -/

theorem State.digest_of_err {s : State} (he : s.err = true) : s.digest = none :=
  if_neg (by simp [he])

theorem State.finalAndGood_of_err {s : State} (he : s.err = true) : s.finalAndGood = false := by
  simp [State.finalAndGood, he]

/-- The only branch of a legal command that sets ERR is BAD_PHASE. -/
theorem ExecCase.eq_recordFault {i : Instr} {s t : State} (h : ExecCase i s t) (hs : s.err = false)
    (ht : t.err = true) : t = s.recordFault .badPhase (encode i) := by
  cases h with
  | discarded he => simp [hs] at he
  | badPhase _ _ _ => rfl
  | init _ _ => simp [hs] at ht
  | absorb b _ _ _ => simp [hs] at ht
  | final _ _ _ => simp [hs] at ht

/-- The cause that R162 gives a word when it faults. -/
def faultCause (w : CmdWord) : ErrCode :=
  match decode w with
  | .ok _ => .badPhase
  | .error _ => .illegalCmd

theorem errCodeBits_faultCause_eq_one_iff (w : CmdWord) :
    errCodeBits (faultCause w) = 1 ↔ ∃ e, decode w = .error e := by
  unfold faultCause
  cases decode w <;> simp [errCodeBits]

theorem errCodeBits_faultCause_eq_two_iff (w : CmdWord) :
    errCodeBits (faultCause w) = 2 ↔ ∃ i, decode w = .ok i := by
  unfold faultCause
  cases decode w <;> simp [errCodeBits]

/-- An accepted word that sets ERR makes fault entry and nothing else. -/
theorem acceptCommand_eq_recordFault {w : CmdWord} {s t : State} (h : acceptCommand w s = .next t)
    (hs : s.err = false) (ht : t.err = true) : t = s.recordFault (faultCause w) w := by
  cases hd : decode w with
  | ok i =>
    rw [acceptCommand_of_ok hd] at h
    rw [(exec_inv h).eq_recordFault hs ht, ← eq_encode_of_decode hd, faultCause, hd]
  | error e =>
    rw [acceptCommand_of_illegal hd hs] at h
    cases h
    rw [faultCause, hd]

/-- Settles O15: the new state is fault entry with `faultCause`, and with ERR = 1 the port shows no value and
the run is not good. -/
theorem faultsArePrecise : Obligations.FaultsArePrecise := by
  unfold Obligations.FaultsArePrecise
  intro s t w h hs ht
  exact ⟨faultCause w, acceptCommand_eq_recordFault h hs ht, errCodeBits_faultCause_eq_one_iff w,
    errCodeBits_faultCause_eq_two_iff w, State.digest_of_err ht, State.finalAndGood_of_err ht⟩

/-! ### While ERR = 1 (R167, R168) -/

theorem acceptCommand_of_faulted {s : State} (he : s.err = true) (w : CmdWord) :
    acceptCommand w s = .next s := by
  cases hd : decode w with
  | ok i => exact (acceptCommand_of_ok hd s).trans (exec_of_err he i)
  | error e => exact acceptCommand_of_err hd he

theorem acceptAll_of_faulted {s : State} (he : s.err = true) (ws : List CmdWord) :
    acceptAll ws s = .next s := by
  induction ws with
  | nil => rfl
  | cons w ws ih => exact (acceptAll_cons (acceptCommand_of_faulted he w) ws).trans ih

/-- Settles O16: `acceptAll_of_faulted` discards the stream, word by word. -/
theorem faultedEngineDiscardsEveryCommand : Obligations.FaultedEngineDiscardsEveryCommand := by
  unfold Obligations.FaultedEngineDiscardsEveryCommand
  intro s ws he
  exact ⟨acceptAll_of_faulted he ws, rfl, State.finalAndGood_of_err he⟩

/-- A step on an offered word takes the word from the host and does no more. -/
theorem step_command_of_faulted {s : State} {w : CmdWord} {rest : List HostInput} (he : s.err = true)
    (hin : s.inputs = .command w :: rest) : step s = .next (s.accepted rest) :=
  (step_command hin).trans (acceptCommand_of_faulted (s := s.accepted rest) he w)

/-- Settles O17, by the host's next input. -/
theorem onlyResetClearsTheFaultRecord : Obligations.OnlyResetClearsTheFaultRecord := by
  unfold Obligations.OnlyResetClearsTheFaultRecord
  intro s t hstep he
  cases hin : s.inputs with
  | nil =>
    cases hstep.symm.trans (step_idle hin)
    exact .inr ⟨nofun, he, rfl, rfl⟩
  | cons input rest =>
    cases input with
    | reset =>
      cases hstep.symm.trans (step_reset hin)
      exact .inl ⟨⟨rest, rfl⟩, rfl, rfl, rfl, rfl⟩
    | command w =>
      cases hstep.symm.trans (step_command_of_faulted he hin)
      exact .inr ⟨nofun, he, rfl, rfl⟩

/-! ### Streams that respect the phases (R160) -/

theorem respects_absorb_cons (p : Phase) (b : Byte) (is : List Instr) :
    respects p (.absorb b :: is) = true ↔ p = .ready ∧ respects .ready is = true := by
  cases p <;> simp [respects]

theorem respects_final_cons (p : Phase) (is : List Instr) :
    respects p (.final :: is) = true ↔ p = .ready ∧ respects .finalized is = true := by
  cases p <;> simp [respects]

/-- `t` has ERR = 0 and the fault record of `s`. -/
structure State.FaultFree (s t : State) : Prop where
  err : t.err = false
  errcode : t.errcode = s.errcode
  errcmd : t.errcmd = s.errcmd

theorem State.FaultFree.trans {s t u : State} (h : s.FaultFree t) (h' : t.FaultFree u) : s.FaultFree u :=
  ⟨h'.err, h'.errcode.trans h.errcode, h'.errcmd.trans h.errcmd⟩

/-- The first command of a stream that respects the phases runs its own body, and the rest of the stream
respects the phase that it leaves. -/
theorem exec_of_respects {s : State} {i : Instr} {is : List Instr} (he : s.err = false)
    (hr : respects s.phase (i :: is) = true) :
    ∃ t, exec i s = .next t ∧ s.FaultFree t ∧ respects t.phase is = true ∧
      endPhase t.phase is = endPhase s.phase (i :: is) := by
  cases i with
  | init => exact ⟨_, exec_init_of_clear he, ⟨he, rfl, rfl⟩, by simpa [respects] using hr, rfl⟩
  | absorb b =>
    obtain ⟨hp, hrest⟩ := (respects_absorb_cons _ _ _).1 hr
    have hphase : (s.absorbByte b).phase = .ready := (s.absorbByte_phase b).trans hp
    refine ⟨_, exec_absorb_of_ready he hp b,
      ⟨(s.absorbByte_err b).trans he, s.absorbByte_errcode b, s.absorbByte_errcmd b⟩, ?_, ?_⟩
    · rwa [hphase]
    · rw [hphase, hp, endPhase]
  | final =>
    obtain ⟨hp, hrest⟩ := (respects_final_cons _ _).1 hr
    refine ⟨_, exec_final_of_ready he hp, ⟨s.finalize_err.trans he, s.finalize_errcode, s.finalize_errcmd⟩,
      ?_, ?_⟩
    · rwa [s.finalize_phase]
    · rw [s.finalize_phase, endPhase]

theorem acceptAll_of_respects {s : State} {is : List Instr} (he : s.err = false)
    (hr : respects s.phase is = true) :
    ∃ t, acceptAll (is.map encode) s = .next t ∧ s.FaultFree t ∧ t.phase = endPhase s.phase is := by
  induction is generalizing s with
  | nil => exact ⟨s, rfl, ⟨he, rfl, rfl⟩, rfl⟩
  | cons i is ih =>
    obtain ⟨u, hexec, hfree, hru, hend⟩ := exec_of_respects he hr
    obtain ⟨t, ht, hfree', hphase⟩ := ih hfree.err hru
    have hfirst : acceptCommand (encode i) s = .next u :=
      (acceptCommand_of_ok (decode_encode i) s).trans hexec
    exact ⟨t, (acceptAll_cons hfirst _).trans ht, hfree.trans hfree', hphase.trans hend⟩

/-- Settles O26: the engine accepts the stream without a fault, by induction over the commands, and by O5 the
steps run the stream that is offered. -/
theorem streamsThatRespectThePhasesNeverFault : Obligations.StreamsThatRespectThePhasesNeverFault := by
  unfold Obligations.StreamsThatRespectThePhasesNeverFault
  intro s is rest he hr hin
  obtain ⟨t, ht, hfree, hphase⟩ := acceptAll_of_respects he hr
  obtain ⟨t', ht', -, -, hsteps⟩ := stepsRunTheOfferedStream s (is.map encode) rest hin
  cases ht.symm.trans ht'
  rw [List.length_map] at hsteps
  exact ⟨_, hsteps, hfree.err, hfree.errcode, hfree.errcmd, hphase, rfl, rfl⟩

/-! ### Totality (R165) -/

/-- Settles O18: `exec_cases` and `step_cases` name a next state in each case. -/
theorem everyCommandAnswersANextState : Obligations.EveryCommandAnswersANextState := by
  unfold Obligations.EveryCommandAnswersANextState
  refine ⟨fun i s => ?_, fun s => ?_⟩
  · obtain ⟨t, ht, _⟩ := exec_cases i s
    exact ⟨t, ht⟩
  · obtain ⟨t, ht, _⟩ := step_cases s
    exact ⟨t, ht⟩

end Sys2Proof.Machine
